-- ==== Sys2Proof/Word.lean ====
section
/-! DEFINITION. The word type of the LS-8 core. Every register, the program counter, the flags register, every memory
cell and every instruction byte is one unsigned byte (00_scope.md R6, R8). -/

namespace Sys2Proof

/-- "A byte is an integer in 0..255" (00_scope.md R7). -/
abbrev Byte := BitVec 8

end Sys2Proof
end

