-- ==== Sys2Proof/Config.lean ====
section
/-! DEFINITION. What is fixed for the machine: the names of the 20 instructions (the domain of the parameter OPCODE),
the parameters of 00_scope.md R6, and the one value the spec leaves OPEN as an uninterpreted constant. -/

namespace Sys2Proof

/-- The instructions in scope, exactly 20 (00_scope.md R2). This is the domain of the configuration parameter
`OPCODE : Mnemonic → Byte` (92_eei_decisions.md D1); its values are `opcodeByte` in Decode.lean. -/
inductive Mnemonic where
  | hlt | ret | push | pop | prn | call | jmp | jeq | jne | not
  | ldi | add | mul | mod | cmp | and | or | xor | shl | shr
  deriving DecidableEq, Repr

/-- Every mnemonic once, in the order of the opcode map (30_encoding.md R63). -/
def Mnemonic.all : List Mnemonic :=
  [.hlt, .ret, .push, .pop, .prn, .call, .jmp, .jeq, .jne, .not,
   .ldi, .add, .mul, .mod, .cmp, .and, .or, .xor, .shl, .shr]

namespace Config

/-- Memory size in cells; addresses are 0..255 (00_scope.md R6, 20_memory.md R40). -/
def memCells : Nat := 256

/-- SP reset value (00_scope.md R6, 10_state.md R22). -/
def spReset : Byte := 0xF4#8

/-- PC reset value, the entry point (00_scope.md R6, 70_reset_and_hazards.md R192). -/
def pcReset : Byte := 0x00#8

/-- FL reset value (00_scope.md R6). -/
def flReset : Byte := 0x00#8

/-- What a memory cell that the image does not cover holds after reset (10_state.md R34). -/
def cellReset : Byte := 0x00#8

/-- A free value (log 15): the OPEN parameter `faultExitCode` of 92_eei_decisions.md D15, less one, by fault code.
The spec asks only that the exit code is nonzero, so the code is one more than this uninterpreted number. -/
opaque faultExitCodeLessOne : Nat → Nat

end Config

end Sys2Proof
end

