-- ==== Sys2Proof/Machine/State.lean ====
section
/-! DEFINITION. The state of one core as plain data (10_state.md): the eight general registers, PC, FL, the memory, the
run status with its fault diagnostic, and the output stream. 10_state.md R33: there is no other state. -/

namespace Sys2Proof.Machine

/-- The fault kinds of 60_exceptions.md R170. A fault is the spec's own end of a run: `raiseFault` puts the kind into
the status of the NEXT state (R177), so no step answers the host's `fault` outcome with one (log 22). Each is safe:
nothing but the status changes (40_dispatcher.md R90). -/
inductive Fault where
  /-- Raised by the cycle when the fetched opcode byte is none of the 20 (R171). Safe. -/
  | unknownOpcode
  /-- Raised by MOD when the divisor register holds 0 (R172). Safe. -/
  | divideByZero
  /-- Raised by every instruction that uses a register field above 7 (R173; the spec's decision D4, log 4). Safe. -/
  | invalidRegister
  /-- Raised by no one: "The kind keeps its code, 5, so that a model can represent it, but no step produces it" (R174). -/
  | unsupportedALUOperation
  deriving DecidableEq, Repr

/-- Why the machine gives no next state. No instruction and no step is refused. -/
inductive Refusal where
  /-- Raised by an arm of `exec` for an instruction without a meaning; there is none left. Safe. -/
  | notModelled (mnemonic : String)
  /-- Raised by the reset port for an image of more than 256 bytes: "`reset` fails, the core does not start, and no
  prefix is loaded" (70_reset_and_hazards.md R191; log 11). Safe. -/
  | imageTooLong (length : Nat)
  deriving DecidableEq, Repr

/-- What a fault records (10_state.md R30, 60_exceptions.md R170; log 19). -/
structure Diagnostic where
  /-- The address of the faulting instruction. -/
  pc : Byte
  /-- The faulting opcode byte. -/
  opcode : Byte
  deriving DecidableEq, Repr

/-- The run status (10_state.md R29); the diagnostic is there exactly when the status is Faulted (R30). -/
inductive Status where
  | running
  | halted
  | faulted (reason : Fault) (diagnostic : Diagnostic)
  deriving DecidableEq, Repr

/-- The number of a general register, 0..7 (10_state.md R20). -/
abbrev RegIdx := Fin 8

/-- Memory as (address, byte) pairs; an address that is not listed reads as `Config.cellReset` (10_state.md R34). -/
abbrev Memory := List Host.Cell

/-- The one canonical form: addresses strictly rising and inside the 256 cells, no entry equal to what an unlisted
address reads as (log 23). -/
abbrev Memory.wf (m : Memory) : Prop :=
  m.Pairwise (fun c d => c.1 < d.1) ∧ ∀ c ∈ m, c.1 < Config.memCells ∧ c.2 ≠ Config.cellReset

/-- The whole state of one core ("PC/SP/FL/registers/memory in one explicit state struct", 10_state.md). -/
structure State where
  /-- R0..R7; R7 is SP (10_state.md R20, R22). -/
  regs : Vector Byte 8
  /-- The program counter (R24). -/
  pc : Byte
  /-- The flags register: bit 0 E, bit 1 G, bit 2 L (R26). -/
  fl : Byte
  /-- The 256 memory cells (20_memory.md R40). -/
  mem : Memory
  /-- The run status and the fault diagnostic (R29, R30). -/
  status : Status
  /-- The bytes PRN has emitted since reset, oldest first (R31). -/
  out : List Byte
  deriving DecidableEq, Repr

/-- The machine right after a reset with the empty image: 10_state.md R34. A program is placed by the reset port
(`resetWith`, Machine/Ports.lean; log 24). -/
def State.reset : State where
  regs := #v[0x00#8, 0x00#8, 0x00#8, 0x00#8, 0x00#8, 0x00#8, 0x00#8, Config.spReset]
  pc := Config.pcReset
  fl := Config.flReset
  mem := []
  status := .running
  out := []

end Sys2Proof.Machine
end

