-- ==== Sys2Proof/Machine/Ops.lean ====
section
/-! DEFINITION. The named operations over registers, PC, FL, memory, output and status: the pseudocode primitives of
00_scope.md R9. Values are mathematical integers until they are written (R8); `narrow` is the one place where a value
is taken modulo 256. -/

namespace Sys2Proof.Machine

/-- What an instruction or a step answers. -/
abbrev Result := Host.Outcome State Fault Refusal

/-- `v mod 256` as a byte (00_scope.md R8, R9). -/
def narrow (v : Int) : Byte := BitVec.ofInt 8 v

/-! ### Memory -/

/-- The byte in cell `a` of the list: its entry, or the reset value where there is none. -/
def memCell : Memory → Nat → Byte
  | [], _ => Config.cellReset
  | (k, x) :: rest, a => if k = a then x else memCell rest a

/-- Put an entry in front of the first one with a higher address. -/
def memInsert (a : Nat) (v : Byte) : Memory → Memory
  | [] => [(a, v)]
  | (k, x) :: rest => if a < k then (a, v) :: (k, x) :: rest else (k, x) :: memInsert a v rest

/-- `MemRead(a, 1)`: every address is a byte, so none is out of range (20_memory.md R41). -/
def memRead (m : Memory) (a : Byte) : Byte := memCell m a.toNat

/-- `MemWrite(a, 1, v)`: store `v mod 256` in cell `a` and change nothing else (20_memory.md R42). Writing the value an
unlisted address reads as takes the entry out, which keeps the canonical form. -/
def memWrite (m : Memory) (a : Byte) (v : Int) : Memory :=
  let others := m.filter fun c => c.1 != a.toNat
  if narrow v = Config.cellReset then others else memInsert a.toNat (narrow v) others

/-! ### Registers, PC, FL, output -/

/-- `x[i]`: read Ri. No register is hard-wired (10_state.md R20). -/
def State.reg (s : State) (i : RegIdx) : Byte := s.regs[i]

/-- `x[i] <- v`: Ri becomes `v mod 256` (10_state.md R23). -/
def State.setReg (s : State) (i : RegIdx) (v : Int) : State := { s with regs := s.regs.set i (narrow v) }

/-- SP is R7 and has no storage of its own (10_state.md R22). -/
def spIdx : RegIdx := 7

/-- `SP`. -/
def State.sp (s : State) : Byte := s.reg spIdx

/-- `SP <- v`, a write of R7. -/
def State.setSp (s : State) (v : Int) : State := s.setReg spIdx v

/-- `pc <- t`: PC becomes `t mod 256` (10_state.md R24; log 3). -/
def State.setPc (s : State) (t : Int) : State := { s with pc := narrow t }

/-- `pc <- (pc + n) mod 256`, the sequential advance (40_dispatcher.md R89). -/
def State.advance (s : State) (n : Nat) : State := s.setPc (s.pc.toNat + n)

/-- `FL <- v`. -/
def State.setFl (s : State) (v : Byte) : State := { s with fl := v }

/-- `MemRead` on the core's memory. -/
def State.load (s : State) (a : Byte) : Byte := memRead s.mem a

/-- `MemWrite` on the core's memory. -/
def State.store (s : State) (a : Byte) (v : Int) : State := { s with mem := memWrite s.mem a v }

/-- `emit(v)`: append to the output stream (10_state.md R31). -/
def State.emit (s : State) (v : Byte) : State := { s with out := s.out ++ [v] }

/-- Write the run status. -/
def State.setStatus (s : State) (t : Status) : State := { s with status := t }

/-- `halt`: the status becomes Halted and nothing else changes (43_control.md R155). -/
def State.halt (s : State) : State := s.setStatus .halted

/-! ### The stack (42_data_stack.md R134): SP decremented before a push, incremented after a pop -/

/-- `SP <- SP - 1`. -/
def State.decSp (s : State) : State := s.setSp ((s.sp.toNat : Int) - 1)

/-- `SP <- SP + 1`. -/
def State.incSp (s : State) : State := s.setSp (s.sp.toNat + 1)

/-- `SP <- SP - 1; MemWrite(SP, 1, v)`, where `v` is computed in the state after the decrement (00_scope.md R10). -/
def State.pushWith (s : State) (v : State → Int) : State :=
  let s1 := s.decSp
  s1.store s1.sp (v s1)

/-! ### Fault entry -/

/-- `raise Fault(reason)` (60_exceptions.md R177): the status becomes Faulted(reason), PC and the opcode byte are
recorded, and nothing else changes. There is no vector, no saved state elsewhere and no return (R178). -/
def raiseFault (reason : Fault) (opcode : Byte) (s : State) : Result :=
  .next (s.setStatus (.faulted reason ⟨s.pc, opcode⟩))

end Sys2Proof.Machine
end

