-- ==== Sys2Proof/Machine/Flags.lean ====
section
/-! DEFINITION. The flags register FL (10_state.md R26): its three bits, and the one computation that writes it, CMP's
(41_alu.md R110). No other instruction writes FL (10_state.md R27; log 5). -/

namespace Sys2Proof.Machine

/-- Bit 0, E: the last CMP found its operands equal. -/
def flagE (fl : Byte) : Bool := fl.getLsbD 0

/-- Bit 1, G: the last CMP found x[ra] > x[rb]. Read by no instruction. -/
def flagG (fl : Byte) : Bool := fl.getLsbD 1

/-- Bit 2, L: the last CMP found x[ra] < x[rb]. Read by no instruction. -/
def flagL (fl : Byte) : Bool := fl.getLsbD 2

/-- FL after an unsigned compare of `a` with `b` (41_alu.md R110). -/
def compareFlags (a b : Byte) : Byte :=
  if a.toNat = b.toNat then 0x01#8
  else if a.toNat > b.toNat then 0x02#8
  else 0x04#8

end Sys2Proof.Machine
end

