-- ==== Sys2Proof/Syntax.lean ====
section
/-! DEFINITION. The instructions, one constructor per row of spec/opcode_table.json. A register field is the whole
operand byte, as the decoder reads it (30_encoding.md R62: "No bits are masked off"); whether it names a register is
checked later (40_dispatcher.md R88), so an operand above 7 is an ill-formed instruction, not an undecodable one. -/

namespace Sys2Proof

/-- One decoded instruction with the operand bytes it uses (30_encoding.md R61). Ignored bytes are not operands. -/
inductive Instr where
  | hlt
  | ret
  | push (r : Byte)
  | pop (r : Byte)
  | prn (r : Byte)
  | call (r : Byte)
  | jmp (r : Byte)
  | jeq (r : Byte)
  | jne (r : Byte)
  | not (ra : Byte)
  | ldi (r imm : Byte)
  | add (ra rb : Byte)
  | mul (ra rb : Byte)
  | mod (ra rb : Byte)
  | cmp (ra rb : Byte)
  | and (ra rb : Byte)
  | or (ra rb : Byte)
  | xor (ra rb : Byte)
  | shl (ra rb : Byte)
  | shr (ra rb : Byte)
  deriving DecidableEq, Repr

/-- The instruction's name. -/
def Instr.mnemonic : Instr → Mnemonic
  | .hlt => .hlt
  | .ret => .ret
  | .push _ => .push
  | .pop _ => .pop
  | .prn _ => .prn
  | .call _ => .call
  | .jmp _ => .jmp
  | .jeq _ => .jeq
  | .jne _ => .jne
  | .not _ => .not
  | .ldi _ _ => .ldi
  | .add _ _ => .add
  | .mul _ _ => .mul
  | .mod _ _ => .mod
  | .cmp _ _ => .cmp
  | .and _ _ => .and
  | .or _ _ => .or
  | .xor _ _ => .xor
  | .shl _ _ => .shl
  | .shr _ _ => .shr

/-- The register fields the instruction uses, opA first (40_dispatcher.md R88's table). -/
def Instr.regFields : Instr → List Byte
  | .hlt | .ret => []
  | .push r | .pop r | .prn r | .call r | .jmp r | .jeq r | .jne r => [r]
  | .not ra => [ra]
  | .ldi r _ => [r]
  | .add ra rb | .mul ra rb | .mod ra rb | .cmp ra rb | .and ra rb | .or ra rb | .xor ra rb | .shl ra rb
  | .shr ra rb => [ra, rb]

end Sys2Proof
end

