-- ==== Sys2Proof/WellFormed.lean ====
section
/-! DEFINITION. Well-formed instructions: every register field the instruction uses names one of R0..R7
(30_encoding.md R62: "A value 0..7 selects R0..R7"). It is the only operand check the ISA has; an immediate and an
ignored byte may be any value (30_encoding.md R66). -/

namespace Sys2Proof

/-- A register field byte that selects one of R0..R7. -/
def validField (f : Byte) : Bool := decide (f.toNat ≤ 7)

/-- Every used register field is in 0..7. -/
def Instr.wf (i : Instr) : Bool := i.regFields.all validField

end Sys2Proof
end

