-- ==== Sys2Proof/Decode.lean ====
section
/-! DEFINITION. Decoding and encoding, from 30_encoding.md. Both take the parameter `OPCODE : Mnemonic → Byte`
(92_eei_decisions.md D1) as an argument `op`; the machine uses the values of R63 (`opcodeByte`). -/

namespace Sys2Proof

/-- The opcode byte values of 30_encoding.md R63. PRESUMED (log 1): the spec itself takes the byte values from general
knowledge of the LS-8. Unsafe for a binary of a machine with other values. -/
def opcodeByte : Mnemonic → Byte
  | .hlt => 0x01#8
  | .ret => 0x11#8
  | .push => 0x45#8
  | .pop => 0x46#8
  | .prn => 0x47#8
  | .call => 0x50#8
  | .jmp => 0x54#8
  | .jeq => 0x55#8
  | .jne => 0x56#8
  | .not => 0x69#8
  | .ldi => 0x82#8
  | .add => 0xA0#8
  | .mul => 0xA2#8
  | .mod => 0xA4#8
  | .cmp => 0xA7#8
  | .and => 0xA8#8
  | .or => 0xAA#8
  | .xor => 0xAB#8
  | .shl => 0xAC#8
  | .shr => 0xAD#8

/-- The instruction's length in bytes: how many bytes of the program it takes up (30_encoding.md R61). NOT has one
operand and takes 3 bytes (R195, 90_conflicts.md C3; log 26). -/
def Mnemonic.length : Mnemonic → Nat
  | .hlt | .ret => 1
  | .push | .pop | .prn | .call | .jmp | .jeq | .jne => 2
  | .not | .ldi | .add | .mul | .mod | .cmp | .and | .or | .xor | .shl | .shr => 3

/-- Why bytes do not decode. -/
inductive DecodeError where
  /-- The first byte is none of the 20 opcodes (30_encoding.md R66). -/
  | unknownOpcode (b : Byte)
  /-- `decodeList` only: the list ends inside the instruction. The core never meets it, since it fetches 3 bytes. -/
  | truncated
  deriving DecidableEq, Repr

/-- The instruction whose opcode is the whole byte `b`, if there is one: an exact match (mask 0xFF) against the 20
values, never by the opcode's bit fields (30_encoding.md R65; log 2). -/
def mnemonicOf (op : Mnemonic → Byte) (b : Byte) : Option Mnemonic :=
  Mnemonic.all.find? fun m => op m == b

/-- Operand assembly (30_encoding.md R61, R62): the instruction with its operands taken whole from opA and opB; the
bytes the format ignores are dropped. -/
def assemble (m : Mnemonic) (opA opB : Byte) : Instr :=
  match m with
  | .hlt => .hlt
  | .ret => .ret
  | .push => .push opA
  | .pop => .pop opA
  | .prn => .prn opA
  | .call => .call opA
  | .jmp => .jmp opA
  | .jeq => .jeq opA
  | .jne => .jne opA
  | .not => .not opA
  | .ldi => .ldi opA opB
  | .add => .add opA opB
  | .mul => .mul opA opB
  | .mod => .mod opA opB
  | .cmp => .cmp opA opB
  | .and => .and opA opB
  | .or => .or opA opB
  | .xor => .xor opA opB
  | .shl => .shl opA opB
  | .shr => .shr opA opB

/-- Decode the three fetched bytes under a given OPCODE. -/
def decodeWith (op : Mnemonic → Byte) (opcode opA opB : Byte) : Except DecodeError Instr :=
  match mnemonicOf op opcode with
  | some m => .ok (assemble m opA opB)
  | none => .error (.unknownOpcode opcode)

/-- Decode the three fetched bytes: total on every three bytes (30_encoding.md R65). -/
def decode (opcode opA opB : Byte) : Except DecodeError Instr := decodeWith opcodeByte opcode opA opB

/-- Read one instruction, of its own length, off the front of a byte list, and give the rest of the list
(30_encoding.md R61 and R67: the length comes from the opcode byte alone). -/
def decodeListWith (op : Mnemonic → Byte) : List Byte → Except DecodeError (Instr × List Byte)
  | [] => .error .truncated
  | b :: rest =>
    match mnemonicOf op b with
    | none => .error (.unknownOpcode b)
    | some m =>
      match m.length, rest with
      | 1, rest => .ok (assemble m 0 0, rest)
      | 2, x :: rest => .ok (assemble m x 0, rest)
      | 3, x :: y :: rest => .ok (assemble m x y, rest)
      | _, _ => .error .truncated

/-- The operand bytes as an assembler lays them out (30_encoding.md R68). NOT has a pad byte, written as 0x00. -/
def Instr.operandBytes : Instr → List Byte
  | .hlt | .ret => []
  | .push r | .pop r | .prn r | .call r | .jmp r | .jeq r | .jne r => [r]
  | .not ra => [ra, 0x00#8]
  | .ldi r imm => [r, imm]
  | .add ra rb | .mul ra rb | .mod ra rb | .cmp ra rb | .and ra rb | .or ra rb | .xor ra rb | .shl ra rb
  | .shr ra rb => [ra, rb]

/-- Encode under a given OPCODE: the opcode byte, then the operand bytes, at ascending addresses
(20_memory.md R44, 30_encoding.md R68). -/
def encodeWith (op : Mnemonic → Byte) (i : Instr) : List Byte := op i.mnemonic :: i.operandBytes

/-- The bytes of an instruction with the opcode values of R63. -/
def encode (i : Instr) : List Byte := encodeWith opcodeByte i

/-- The bytes of a whole program, one instruction after another. -/
def encodeProgramWith (op : Mnemonic → Byte) (p : List Instr) : List Byte := p.flatMap (encodeWith op)

/-- Read at most `n` instructions off the front of a byte list, until the list is used up. -/
def decodeProgramWith (op : Mnemonic → Byte) : Nat → List Byte → Except DecodeError (List Instr)
  | _, [] => .ok []
  | 0, _ :: _ => .error .truncated
  | n + 1, b :: bs =>
    match decodeListWith op (b :: bs) with
    | .error e => .error e
    | .ok (i, rest) =>
      match decodeProgramWith op n rest with
      | .error e => .error e
      | .ok is => .ok (i :: is)

/-- Byte `k` of a number, byte 0 the least significant. -/
def byteOf (w k : Nat) : Byte := BitVec.ofNat 8 (w / 256 ^ k)

/-- The host's question about a row of spec/opcode_table.json: the instruction this decoder reads from the `nbits` low
bits of `w`, the first byte in bits 7..0, every bit above `nbits` zero. -/
def decodeTableWord (nbits w : Nat) : Option Instr :=
  let v := w % 2 ^ nbits
  match decode (byteOf v 0) (byteOf v 1) (byteOf v 2) with
  | .ok i => some i
  | .error _ => none

/-- The mnemonic as the spec writes it. -/
def Mnemonic.name : Mnemonic → String
  | .hlt => "HLT"
  | .ret => "RET"
  | .push => "PUSH"
  | .pop => "POP"
  | .prn => "PRN"
  | .call => "CALL"
  | .jmp => "JMP"
  | .jeq => "JEQ"
  | .jne => "JNE"
  | .not => "NOT"
  | .ldi => "LDI"
  | .add => "ADD"
  | .mul => "MUL"
  | .mod => "MOD"
  | .cmp => "CMP"
  | .and => "AND"
  | .or => "OR"
  | .xor => "XOR"
  | .shl => "SHL"
  | .shr => "SHR"

/-- The assembler form of an instruction: mnemonic, then operands separated by commas, registers as `R<n>` and
immediates in decimal (30_encoding.md R68; notation only, log 18). -/
def Instr.asm (i : Instr) : String :=
  let regName (f : Byte) : String := "R" ++ toString f.toNat
  match i with
  | .hlt | .ret => i.mnemonic.name
  | .push r | .pop r | .prn r | .call r | .jmp r | .jeq r | .jne r => i.mnemonic.name ++ " " ++ regName r
  | .not ra => i.mnemonic.name ++ " " ++ regName ra
  | .ldi r imm => i.mnemonic.name ++ " " ++ regName r ++ ", " ++ toString imm.toNat
  | .add ra rb | .mul ra rb | .mod ra rb | .cmp ra rb | .and ra rb | .or ra rb | .xor ra rb | .shl ra rb
  | .shr ra rb => i.mnemonic.name ++ " " ++ regName ra ++ ", " ++ regName rb

end Sys2Proof
end

