-- ==== Sys2Proof/Machine/Operands.lean ====
section
/-! DEFINITION. Operand forms (30_encoding.md R62): a register field is a whole byte that must be 0..7, checked before
any state change, opA first and then opB (40_dispatcher.md R88); an immediate is the whole byte, unsigned. -/

namespace Sys2Proof.Machine

/-- The register a field byte selects; none for 8..255. No bits are masked off (30_encoding.md R62). -/
def regIndex (f : Byte) : Option RegIdx :=
  if h : f.toNat < 8 then some ⟨f.toNat, h⟩ else none

/-- The value of an immediate operand: no extension, no scaling, no shift (30_encoding.md R62). -/
def immediate (imm : Byte) : Int := imm.toNat

/-- Run `body` with the register that the field `f` selects, or raise InvalidRegister for instruction `m`
(40_dispatcher.md R88, 60_exceptions.md R173; log 4). The opcode byte recorded is `m`'s own, which is the byte that
decoded to `m` (log 25). -/
def withReg (m : Mnemonic) (f : Byte) (s : State) (body : RegIdx → Result) : Result :=
  match regIndex f with
  | some i => body i
  | none => raiseFault .invalidRegister (opcodeByte m) s

/-- Two register fields, opA and then opB. -/
def withRegs (m : Mnemonic) (fa fb : Byte) (s : State) (body : RegIdx → RegIdx → Result) : Result :=
  withReg m fa s fun a => withReg m fb s fun b => body a b

end Sys2Proof.Machine
end

