-- ==== Sys2Proof/Machine/Alu.lean ====
section
/-! DEFINITION. The ALU and its ten instructions (41_alu.md). Each value function computes the exact integer result of
the rule's pseudocode; the register write narrows it mod 256 (R100). Both operands are read before the result is
written, no memory is touched, and PC advances by 3 (40_dispatcher.md R85). -/

namespace Sys2Proof.Machine

/-! ### The values -/

/-- R101: the exact sum. -/
def aluAdd (a b : Byte) : Int := a.toNat + b.toNat

/-- R102: the exact product. -/
def aluMul (a b : Byte) : Int := a.toNat * b.toNat

/-- R103: the unsigned remainder, for a divisor other than 0. -/
def aluMod (a b : Byte) : Int := (a.toNat % b.toNat : Nat)

/-- R104. -/
def aluAnd (a b : Byte) : Int := (a &&& b).toNat

/-- R105. -/
def aluOr (a b : Byte) : Int := (a ||| b).toNat

/-- R106. -/
def aluXor (a b : Byte) : Int := (a ^^^ b).toNat

/-- R107: `0xFF - x[ra]`. -/
def aluNot (a : Byte) : Int := 0xFF - (a.toNat : Int)

/-- R108: a·2^n. The count is the whole byte, not taken mod 8. -/
def aluShl (a b : Byte) : Int := (a.toNat * 2 ^ b.toNat : Nat)

/-- R109: floor(a / 2^n), zeros shift in. -/
def aluShr (a b : Byte) : Int := (a.toNat / 2 ^ b.toNat : Nat)

/-! ### The shared shape -/

/-- `x[ra] <- f(x[ra], x[rb]); pc <- pc + 3` (R100). -/
def aluBinary (m : Mnemonic) (f : Byte → Byte → Int) (ra rb : Byte) (s : State) : Result :=
  withRegs m ra rb s fun a b => .next ((s.setReg a (f (s.reg a) (s.reg b))).advance 3)

/-! ### The instructions -/

/-- ADD Ra, Rb (R101). -/
def execAdd (ra rb : Byte) (s : State) : Result := aluBinary .add aluAdd ra rb s

/-- MUL Ra, Rb (R102). -/
def execMul (ra rb : Byte) (s : State) : Result := aluBinary .mul aluMul ra rb s

/-- MOD Ra, Rb (R103): DivideByZero on divisor 0, after the register check and before any write
(60_exceptions.md R172, R176; log 6). -/
def execMod (ra rb : Byte) (s : State) : Result :=
  withRegs .mod ra rb s fun a b =>
    if s.reg b = 0x00#8 then raiseFault .divideByZero (opcodeByte .mod) s
    else .next ((s.setReg a (aluMod (s.reg a) (s.reg b))).advance 3)

/-- AND Ra, Rb (R104). -/
def execAnd (ra rb : Byte) (s : State) : Result := aluBinary .and aluAnd ra rb s

/-- OR Ra, Rb (R105). -/
def execOr (ra rb : Byte) (s : State) : Result := aluBinary .or aluOr ra rb s

/-- XOR Ra, Rb (R106). -/
def execXor (ra rb : Byte) (s : State) : Result := aluBinary .xor aluXor ra rb s

/-- NOT Ra (R107): one operand, and PC still advances by 3 (log 26). -/
def execNot (ra : Byte) (s : State) : Result :=
  withReg .not ra s fun a => .next ((s.setReg a (aluNot (s.reg a))).advance 3)

/-- SHL Ra, Rb (R108). -/
def execShl (ra rb : Byte) (s : State) : Result := aluBinary .shl aluShl ra rb s

/-- SHR Ra, Rb (R109). -/
def execShr (ra rb : Byte) (s : State) : Result := aluBinary .shr aluShr ra rb s

/-- CMP Ra, Rb (R110): writes FL and no register. -/
def execCmp (ra rb : Byte) (s : State) : Result :=
  withRegs .cmp ra rb s fun a b => .next ((s.setFl (compareFlags (s.reg a) (s.reg b))).advance 3)

end Sys2Proof.Machine
end

