-- ==== Sys2Proof/Machine/Control.lean ====
section
/-! DEFINITION. Control transfer and halt (43_control.md). Every target is a register's value or the popped byte; any
target is legal, with no alignment and no delay slot (R156). None of these writes FL. -/

namespace Sys2Proof.Machine

/-- `pc <- x[r]`. -/
def State.jumpTo (s : State) (i : RegIdx) : State := s.setPc (s.reg i).toNat

/-- CALL Rr (R150): the return address is pc + 2, and x[r] is read after the SP update (log 14). -/
def execCall (r : Byte) (s : State) : Result :=
  withReg .call r s fun i =>
    .next ((s.pushWith fun t => narrow (t.pc.toNat + 2) |>.toNat).jumpTo i)

/-- RET (R151): pops whatever byte is at SP. -/
def execRet (s : State) : Result := .next ((s.setPc (s.load s.sp).toNat).incSp)

/-- JMP Rr (R152). -/
def execJmp (r : Byte) (s : State) : Result :=
  withReg .jmp r s fun i => .next (s.jumpTo i)

/-- JEQ Rr (R153): the field is checked whether or not the jump is taken (40_dispatcher.md R88). -/
def execJeq (r : Byte) (s : State) : Result :=
  withReg .jeq r s fun i => .next (if flagE s.fl then s.jumpTo i else s.advance 2)

/-- JNE Rr (R154). -/
def execJne (r : Byte) (s : State) : Result :=
  withReg .jne r s fun i => .next (if flagE s.fl then s.advance 2 else s.jumpTo i)

/-- HLT (R155): the status becomes Halted; PC keeps the address of the HLT. -/
def execHlt (s : State) : Result := .next s.halt

end Sys2Proof.Machine
end

