-- ==== Sys2Proof/Machine/DataStack.lean ====
section
/-! DEFINITION. Data movement and stack instructions (42_data_stack.md). Bodies run top to bottom (00_scope.md R10),
which decides PUSH R7 and POP R7 (log 14). There is no stack overflow or underflow check (R134). -/

namespace Sys2Proof.Machine

/-- LDI Rr, imm (R130). -/
def execLdi (r imm : Byte) (s : State) : Result :=
  withReg .ldi r s fun i => .next ((s.setReg i (immediate imm)).advance 3)

/-- PRN Rr (R131): the byte goes to the output stream (log 10). -/
def execPrn (r : Byte) (s : State) : Result :=
  withReg .prn r s fun i => .next ((s.emit (s.reg i)).advance 2)

/-- PUSH Rr (R132): x[r] is read after the decrement. -/
def execPush (r : Byte) (s : State) : Result :=
  withReg .push r s fun i => .next ((s.pushWith fun t => (t.reg i).toNat).advance 2)

/-- POP Rr (R133): the increment acts on SP after the load, so on the loaded value when r = 7. -/
def execPop (r : Byte) (s : State) : Result :=
  withReg .pop r s fun i => .next ((s.setReg i (s.load s.sp).toNat).incSp.advance 2)

end Sys2Proof.Machine
end

