-- ==== Sys2Proof/Machine/Fetch.lean ====
section
/-! DEFINITION. Fetch (40_dispatcher.md R82) and the placing of instruction bytes where the next fetch reads them. -/

namespace Sys2Proof.Machine

/-- The three bytes a step latches (10_state.md R32). The latch lives inside one step only, so it is no field of State;
the rest of the step uses these bytes even if the step overwrites their cells (20_memory.md R53; log 16). -/
structure Latch where
  opcode : Byte
  opA : Byte
  opB : Byte
  deriving DecidableEq, Repr

/-- The address of fetch byte `k`: `(pc + k) mod 256` (20_memory.md R48; log 3). -/
def fetchAddr (s : State) (k : Nat) : Byte := narrow (s.pc.toNat + k)

/-- Fetch three bytes, always, whether or not the opcode uses them. -/
def fetch (s : State) : Latch :=
  ⟨s.load (fetchAddr s 0), s.load (fetchAddr s 1), s.load (fetchAddr s 2)⟩

/-- Decode the latched bytes. -/
def Latch.decoded (l : Latch) : Except DecodeError Instr := decode l.opcode l.opA l.opB

/-- Store byte `k` of `w` where fetch byte `k` is read from. -/
def placeByte (w k : Nat) (s : State) : State := s.store (fetchAddr s k) (byteOf w k).toNat

/-- Store the `nbits` low bits of `w`, and zeros above them, in the three cells the next fetch reads. -/
def placeFetchWord (nbits w : Nat) (s : State) : State :=
  let v := w % 2 ^ nbits
  placeByte v 2 (placeByte v 1 (placeByte v 0 s))

end Sys2Proof.Machine
end

