-- ==== Sys2Proof/Machine/Cycle.lean ====
section
/-! DEFINITION. One fetch-decode-execute cycle, and the answer of a core that no longer runs (40_dispatcher.md R81,
R93). -/

namespace Sys2Proof.Machine

/-- Fetch, decode, and run the instruction's meaning, or raise UnknownOpcode with the fetched byte (40_dispatcher.md
R82 to R88, R93). HLT comes first in R84; since no byte is both HLT and unknown, one match gives the same order. -/
def runCycle (s : State) : Result :=
  let l := fetch s
  match l.decoded with
  | .ok i => exec i s
  | .error _ => raiseFault .unknownOpcode l.opcode s

/-- A `step` request to a core that is Halted or Faulted changes nothing (40_dispatcher.md R81; log 13). -/
def ignoreRequest (s : State) : Result := .next s

end Sys2Proof.Machine
end

