-- ==== Sys2Proof/Machine/Step.lean ====
section
/-! DEFINITION. The step: one `step` request to the core (40_dispatcher.md R81). -/

namespace Sys2Proof.Machine

/-- "A step exists only while the status is `Running`" (40_dispatcher.md R81). -/
def step (s : State) : Host.Outcome State Fault Refusal :=
  match s.status with
  | .running => runCycle s
  | .halted => ignoreRequest s
  | .faulted _ _ => ignoreRequest s

/-- The state `s` made ready to run the given instruction next: its bytes stand where the fetch reads them and the core
runs. It stands for the image that the reset port loads (log 24). -/
def State.withFetchWord (s : State) (nbits w : Nat) : State := placeFetchWord nbits w (s.setStatus .running)

end Sys2Proof.Machine
end

