-- ==== Sys2Proof/Machine/Ports.lean ====
section
/-! DEFINITION. The ports of 40_dispatcher.md R80 (the spec's decision D8, log 8): `reset(image)`, `step`, `status`,
`out` and `trace`, and the caller's mapping of the final status to an exit code (R91). -/

namespace Sys2Proof.Machine

/-! ### reset -/

/-- Write the bytes at ascending addresses from `a`. -/
def loadFrom : Nat → List Byte → Memory → Memory
  | _, [], m => m
  | a, b :: bs, m => loadFrom (a + 1) bs (memWrite m (narrow a) b.toNat)

/-- `reset(image)` (70_reset_and_hazards.md R190): clear everything, load the image from address 0, run. An image of
more than 256 bytes is refused (R191; log 11). The state before does not matter. -/
def resetWith (image : List Byte) : Result :=
  if image.length ≤ Config.memCells then .next { State.reset with mem := loadFrom 0 image State.reset.mem }
  else .refused (.imageTooLong image.length)

/-! ### the requests the host can make -/

/-- What the host can ask of the core (R80): no other input exists. -/
inductive Request where
  | reset (image : List Byte)
  | step
  deriving DecidableEq, Repr

/-- The core's answer to one request. -/
def request : Request → State → Result
  | .reset image, _ => resetWith image
  | .step, s => step s

/-! ### status -/

/-- The fault reason codes (60_exceptions.md R170; log 7). -/
def Fault.code : Fault → Nat
  | .unknownOpcode => 1
  | .divideByZero => 3
  | .invalidRegister => 4
  | .unsupportedALUOperation => 5

/-- What the status port shows. -/
inductive StatusReport where
  | running
  | halted
  | faulted (code : Nat) (pc opcode : Byte)
  deriving DecidableEq, Repr

/-- The status port (R80). -/
def statusPort (s : State) : StatusReport :=
  match s.status with
  | .running => .running
  | .halted => .halted
  | .faulted f d => .faulted f.code d.pc d.opcode

/-- The caller's exit code for an ended run (R91): 0 for Halted, 1 for UnknownOpcode, nonzero and otherwise free for
the other faults (log 15); none while the status is Running, since then no result is defined (R92). -/
def exitCode (s : State) : Option Nat :=
  match s.status with
  | .running => none
  | .halted => some 0
  | .faulted .unknownOpcode _ => some 1
  | .faulted f _ => some (Config.faultExitCodeLessOne f.code + 1)

/-! ### out -/

/-- The out port: the bytes emitted since reset, in emission order. -/
def outPort (s : State) : List Byte := s.out

/-! ### trace -/

/-- One record of the trace port (R83). -/
structure TraceRecord where
  pc : Byte
  latch : Latch
  regs : Vector Byte 8
  deriving DecidableEq, Repr

/-- The record a `step` request puts on the trace port: taken after the fetch and before execution, by every step,
halting and faulting ones too; none when there is no step (R81, R83; log 9). It changes no state. -/
def tracePort (s : State) : Option TraceRecord :=
  match s.status with
  | .running => some ⟨s.pc, fetch s, s.regs⟩
  | .halted => none
  | .faulted _ _ => none

/-! ### a run with the host's step budget -/

/-- At most `fuel` step requests, with the trace records in order. Using the budget up ends nothing: the status stays
as it is (R92; log 17). -/
def runFor : Nat → State → List TraceRecord × Result
  | 0, s => ([], .next s)
  | fuel + 1, s =>
    match step s with
    | .next t => let r := runFor fuel t; ((tracePort s).toList ++ r.1, r.2)
    | .fault f => ((tracePort s).toList, .fault f)
    | .refused r => ((tracePort s).toList, .refused r)

end Sys2Proof.Machine
end

