-- ==== Sys2Proof/Safety.lean ====
section
/-! DEFINITION. What counts as a good state and a safe run. Faulted is a bad final state, never success (log 13). -/

namespace Sys2Proof.Machine

/-- The four values FL can hold (10_state.md R28). -/
def flLegal (fl : Byte) : Prop := fl = 0x00#8 ∨ fl = 0x01#8 ∨ fl = 0x02#8 ∨ fl = 0x04#8

/-- The recorded opcode byte fits the fault kind: an unknown byte for UnknownOpcode, MOD's byte for DivideByZero, the
byte of an instruction with a register field for InvalidRegister; UnsupportedALUOperation is never raised
(60_exceptions.md R170 to R174). -/
def faultFits : Fault → Byte → Prop
  | .unknownOpcode, b => mnemonicOf opcodeByte b = none
  | .divideByZero, b => b = opcodeByte .mod
  | .invalidRegister, b => ∃ m, b = opcodeByte m ∧ m ≠ .hlt ∧ m ≠ .ret
  | .unsupportedALUOperation, _ => False

/-- The status agrees with the rest of the state: a halted core's PC addresses an HLT (43_control.md R155), and a
faulted core recorded its PC and the byte that PC addresses (60_exceptions.md R177). -/
def statusConsistent (s : State) : Prop :=
  match s.status with
  | .running => True
  | .halted => s.load s.pc = opcodeByte .hlt
  | .faulted f d => d.pc = s.pc ∧ d.opcode = s.load s.pc ∧ faultFits f d.opcode

/-- The machine's invariant: memory in canonical form, a legal FL, a status that fits. -/
structure State.Inv (s : State) : Prop where
  memory : s.mem.wf
  flags : flLegal s.fl
  status : statusConsistent s

/-- The run has not ended in a fault. -/
def State.notFaulted (s : State) : Prop := ∀ f d, s.status ≠ .faulted f d

/-- A run of `k` steps from `s` is safe: it stays out of Faulted all the way. -/
def safeFor : Nat → State → Prop
  | 0, s => s.notFaulted
  | k + 1, s => s.notFaulted ∧ ∀ t, step s = .next t → safeFor k t

/-- A run that ends well: after some number of steps the core is Halted (S1 of 95_test_vectors.md). -/
def haltsFrom (s : State) : Prop :=
  ∃ k t, (runFor k s).2 = .next t ∧ t.status = .halted

end Sys2Proof.Machine
end

