-- ==== Sys2Proof/Certificates/Slice0/Obligations.lean ====
section
/-! DEFINITION. The statements about the model, for the provers. Rules are those of spec/; a clause that rests on one of
the spec's own decisions (D1 to D21 of 92_eei_decisions.md, or a rule marked [derived]) is said to do so. -/

open Sys2Proof Sys2Proof.Machine

/-! ### The step -/

/-- 40_dispatcher.md R82, R86, R93: a running core fetches at pc, pc + 1 and pc + 2 mod 256 and runs the instruction
those bytes decode to; nothing is added around the instruction. (The wrap is the spec's decision D3, log 3.) -/
def Obligations.StepRunsDecodedInstruction : Prop :=
  ∀ (s : State) (i : Instr), s.status = .running →
    decode (s.load s.pc) (s.load (s.pc + 1#8)) (s.load (s.pc + 2#8)) = .ok i → step s = exec i s

/-- 40_dispatcher.md R87: an opcode byte that is no instruction's opcode takes the core to Faulted(UnknownOpcode) with a
diagnostic, and nothing else changes. -/
def Obligations.UnknownOpcodeFaultsTheStep : Prop :=
  ∀ s : State, s.status = .running → (∀ m, opcodeByte m ≠ s.load s.pc) →
    ∃ d, step s = .next { s with status := .faulted .unknownOpcode d }

/-- 10_state.md R29: the initial status is Running; Halted and Faulted are final, no later step changes any state; the
status port shows the status. -/
def Obligations.HaltedAndFaultedAreFinal : Prop :=
  State.reset.status = .running ∧
  (∀ (k : Nat) (s : State), s.status ≠ .running → core.run k s = .next s) ∧
  ∀ s t : State, statusPort s = statusPort t ↔ s.status = t.status

/-- 60_exceptions.md R178: a faulted core takes no step, and among the requests only a reset takes it out of Faulted. -/
def Obligations.OnlyResetLeavesFaulted : Prop :=
  ∀ (s : State) (f : Fault) (d : Diagnostic), s.status = .faulted f d →
    request .step s = .next s ∧
    (∀ (q : Request) (t : State), request q s = .next t → t.status ≠ s.status → ∃ image, q = .reset image) ∧
    ∀ image : List Byte, image.length ≤ 256 → ∃ t, request (.reset image) s = .next t ∧ t.status = .running

/-- 40_dispatcher.md R90: a step that ends in a fault changes nothing but the status and the diagnostic in it, and its
trace record is still made. -/
def Obligations.FaultingStepChangesOnlyStatus : Prop :=
  ∀ (s t : State) (f : Fault) (d : Diagnostic), s.status = .running → step s = .next t →
    t.status = .faulted f d → t = { s with status := .faulted f d } ∧ (tracePort s).isSome

/-- 60_exceptions.md R177 and R170: a fault records the PC, which still addresses the faulting instruction, and the
opcode byte fetched there. (The content of the diagnostic is the spec's decision D19, log 19.) -/
def Obligations.FaultRecordsPcAndOpcode : Prop :=
  ∀ (s t : State) (f : Fault) (d : Diagnostic), s.status = .running → step s = .next t →
    t.status = .faulted f d → t.pc = s.pc ∧ d = ⟨s.pc, s.load s.pc⟩

/-- Every step request gets a next state, and every instruction has a meaning in every state: a fault is a next state
too (60_exceptions.md R177; log 22 and log 13 for the stopped core). -/
def Obligations.EveryStepAnswersNextState : Prop :=
  (∀ s : State, ∃ t, step s = .next t) ∧ ∀ (i : Instr) (s : State), ∃ t, exec i s = .next t

/-- 60_exceptions.md R176 (the spec's decision D6, log 6): what one step of a running core ends in is decided in the
order decode, register fields, divisor. -/
def Obligations.StepFaultsInPriorityOrder : Prop :=
  ∀ s t : State, s.status = .running → step s = .next t →
    let got := decode (s.load s.pc) (s.load (s.pc + 1#8)) (s.load (s.pc + 2#8))
    (t.status = .halted ↔ got = .ok .hlt) ∧
    ((∃ d, t.status = .faulted .unknownOpcode d) ↔ ∀ i, got ≠ .ok i) ∧
    ((∃ d, t.status = .faulted .invalidRegister d) ↔ ∃ i, got = .ok i ∧ i.wf = false) ∧
    ((∃ d, t.status = .faulted .divideByZero d) ↔
      ∃ (ra rb : Byte) (_ : ra.toNat < 8) (hb : rb.toNat < 8), got = .ok (.mod ra rb) ∧ s.regs[rb.toNat] = 0#8)

/-- 60_exceptions.md R174 (resting on the spec's decision D2): no step produces UnsupportedALUOperation, and the kind
keeps its code 5. -/
def Obligations.UnsupportedAluOperationNeverRaised : Prop :=
  (∀ (s t : State) (d : Diagnostic), step s = .next t → t.status = .faulted .unsupportedALUOperation d → t = s) ∧
  Fault.code .unsupportedALUOperation = 5

/-- 60_exceptions.md R172: MOD raises DivideByZero when x[rb] = 0, and no other instruction raises it. -/
def Obligations.DivideByZeroRaisedByModAlone : Prop :=
  (∀ (s : State) (ra rb : Byte) (_ : ra.toNat < 8) (hb : rb.toNat < 8), s.regs[rb.toNat] = 0#8 →
    ∃ d, exec (.mod ra rb) s = .next { s with status := .faulted .divideByZero d }) ∧
  ∀ (i : Instr) (s t : State) (d : Diagnostic), s.status = .running → exec i s = .next t →
    t.status = .faulted .divideByZero d →
    ∃ (ra rb : Byte) (_ : ra.toNat < 8) (hb : rb.toNat < 8), i = .mod ra rb ∧ s.regs[rb.toNat] = 0#8

/-- 40_dispatcher.md R88 and 60_exceptions.md R173 (the spec's decision D4, log 4): an instruction with a used register
field above 7 raises InvalidRegister and changes nothing else, whichever instruction it is; an instruction whose fields
are all in 0..7 does not raise it. -/
def Obligations.InvalidRegisterFieldFaults : Prop :=
  (∀ (i : Instr) (s : State), (∃ f ∈ i.regFields, 7 < f.toNat) →
    exec i s = .next { s with status := .faulted .invalidRegister ⟨s.pc, opcodeByte i.mnemonic⟩ }) ∧
  ∀ (i : Instr) (s t : State) (d : Diagnostic), s.status = .running → (∀ f ∈ i.regFields, f.toNat ≤ 7) →
    exec i s = .next t → t.status ≠ .faulted .invalidRegister d

/-! ### Reset -/

/-- 70_reset_and_hazards.md R192: after a reset the status is Running with PC = 0, SP = 0xF4, all other general
registers 0 and FL = 0, and the first step fetches at address 0. -/
def Obligations.RunStartsAtAddressZero : Prop :=
  ∀ image : List Byte, image.length ≤ 256 →
    ∃ t, resetWith image = .next t ∧ t.status = .running ∧ t.pc = 0x00#8 ∧ t.sp = 0xF4#8 ∧ t.fl = 0x00#8 ∧
      (∀ r : RegIdx, r.val < 7 → t.reg r = 0x00#8) ∧ (fetch t).opcode = t.load 0x00#8

/-- 10_state.md R34: every field of the reset state with no image. (That the output stream starts empty is the spec's
decision D12, log 12.) -/
def Obligations.ResetStateValues : Prop :=
  State.reset.regs = #v[0x00#8, 0x00#8, 0x00#8, 0x00#8, 0x00#8, 0x00#8, 0x00#8, 0xF4#8] ∧
  State.reset.pc = 0x00#8 ∧ State.reset.fl = 0x00#8 ∧ (∀ a, State.reset.load a = 0x00#8) ∧
  State.reset.status = .running ∧ State.reset.out = []

/-- 70_reset_and_hazards.md R190 and 10_state.md R34: `reset(image)` clears everything and then loads the image from
address 0, whatever the state before; cells past the image are 0x00. (The order is the spec's decision D12, log 12. The
clause on the canonical form, `t.mem.wf`, is no rule of the spec: it is the model's own choice of representation, log 23.) -/
def Obligations.ResetLoadsImage : Prop :=
  ∀ (s : State) (image : List Byte), image.length ≤ 256 →
    ∃ t, request (.reset image) s = .next t ∧
      (∀ a : Byte, t.load a = if h : a.toNat < image.length then image[a.toNat] else 0x00#8) ∧
      t.mem.wf ∧ t.regs = State.reset.regs ∧ t.pc = 0x00#8 ∧ t.fl = 0x00#8 ∧ t.status = .running ∧ t.out = []

/-- 70_reset_and_hazards.md R191 (the spec's decision D11, log 11): a longer image is refused; the empty image is legal
and its first step faults with UnknownOpcode at address 0. -/
def Obligations.OversizeImageRefusedEmptyImageFaults : Prop :=
  (∀ image : List Byte, 256 < image.length → resetWith image = .refused (.imageTooLong image.length)) ∧
  resetWith [] = .next State.reset ∧
  step State.reset = .next { State.reset with status := .faulted .unknownOpcode ⟨0x00#8, 0x00#8⟩ }

/-! ### Registers, memory, flags, output -/

/-- 10_state.md R23: a register write stores its value modulo 256, in that register only, SP included; so SP - 1 at 0x00
gives 0xFF and SP + 1 at 0xFF gives 0x00. -/
def Obligations.RegisterWriteIsModulo256 : Prop :=
  (∀ (s : State) (i : RegIdx) (v : Int), (((s.setReg i v).reg i).toNat : Int) = v % 256 ∧
    ∀ j, j ≠ i → (s.setReg i v).reg j = s.reg j) ∧
  (∀ s : State, s.sp = 0x00#8 → s.decSp.sp = 0xFF#8) ∧
  ∀ s : State, s.sp = 0xFF#8 → s.incSp.sp = 0x00#8

/-- 20_memory.md R42: a memory write stores the low 8 bits of the value in its cell and changes nothing else. -/
def Obligations.MemoryWriteStoresOneByte : Prop :=
  ∀ (s : State) (a : Byte) (v : Nat),
    (s.store a v).load a = BitVec.ofNat 8 (v &&& 0xFF) ∧ (∀ b, b ≠ a → (s.store a v).load b = s.load b) ∧
    { s.store a v with mem := s.mem } = s

/-- 20_memory.md R50: after any sequence of writes, a read returns the value of the most recent write to its cell, and
the cell's earlier content if there is none. -/
def Obligations.ReadReturnsMostRecentWrite : Prop :=
  ∀ (writes : List (Byte × Byte)) (s : State) (a : Byte),
    (writes.foldl (fun t w => t.store w.1 w.2.toNat) s).load a =
      match writes.reverse.find? (fun w => w.1 == a) with
      | some w => w.2
      | none => s.load a

/-- 10_state.md R26: FL resets to 0, is written by CMP only (E, G, L say how the operands compare, bits 7:3 are 0), E is
read by JEQ and JNE only, and G, L and bits 7:3 are read by no instruction. -/
def Obligations.FlagsRegisterBits : Prop :=
  State.reset.fl = 0x00#8 ∧
  (∀ (i : Instr) (s t : State), exec i s = .next t → t.fl ≠ s.fl → ∃ ra rb, i = .cmp ra rb) ∧
  (∀ (s t : State) (ra rb : Byte) (ha : ra.toNat < 8) (hb : rb.toNat < 8), exec (.cmp ra rb) s = .next t →
    t.fl.getLsbD 0 = decide (s.regs[ra.toNat] = s.regs[rb.toNat]) ∧
    t.fl.getLsbD 1 = decide (s.regs[ra.toNat].toNat > s.regs[rb.toNat].toNat) ∧
    t.fl.getLsbD 2 = decide (s.regs[ra.toNat].toNat < s.regs[rb.toNat].toNat) ∧
    ∀ k, 3 ≤ k → t.fl.getLsbD k = false) ∧
  ∀ (i : Instr) (s : State) (f : Byte),
    (f.getLsbD 0 = s.fl.getLsbD 0 ∨ ∀ r, i ≠ .jeq r ∧ i ≠ .jne r) →
    ∃ t u, exec i s = .next t ∧ exec i { s with fl := f } = .next u ∧ { u with fl := t.fl } = t

/-- 10_state.md R28 (which the spec marks as derived): FL is legal at reset, and from a legal FL every step leaves FL at
0x00, 0x01, 0x02 or 0x04. R27: a step brings FL to a new value only if it is a running core's step that decodes to CMP
with both fields in 0..7. (That no other instruction writes FL is the spec's decision D5, log 5.) -/
def Obligations.FlagsStayOneOfFourValues : Prop :=
  flLegal State.reset.fl ∧
  (∀ s t : State, flLegal s.fl → step s = .next t → flLegal t.fl) ∧
  ∀ s t : State, step s = .next t → t.fl ≠ s.fl →
    ∃ ra rb : Byte, ra.toNat < 8 ∧ rb.toNat < 8 ∧ s.status = .running ∧
      decode (s.load s.pc) (s.load (s.pc + 1#8)) (s.load (s.pc + 2#8)) = .ok (.cmp ra rb)

/-- 10_state.md R31: the output stream is empty at reset, PRN appends the register's byte to it, and no other step
changes it. -/
def Obligations.OutputStreamHoldsPrnBytes : Prop :=
  State.reset.out = [] ∧
  (∀ (s t : State) (r : Byte) (hr : r.toNat < 8), s.status = .running →
    decode (s.load s.pc) (s.load (s.pc + 1#8)) (s.load (s.pc + 2#8)) = .ok (.prn r) → step s = .next t →
    t.out = s.out ++ [s.regs[r.toNat]] ∧ outPort t = t.out) ∧
  ∀ s t : State, step s = .next t → t.out ≠ s.out →
    ∃ r : Byte, r.toNat < 8 ∧ s.status = .running ∧
      decode (s.load s.pc) (s.load (s.pc + 1#8)) (s.load (s.pc + 2#8)) = .ok (.prn r)

/-! ### ALU instructions, each with its whole frame (41_alu.md)

Each names the one next state: the destination register and PC change, and nothing else does. Fields above 7 are
`Obligations.InvalidRegisterFieldFaults`. That PC wraps is the spec's decision D3 (log 3), that FL stays its D5 (log 5). -/

/-- 41_alu.md R101: ADD writes the sum modulo 256. -/
def Obligations.AddWritesSum : Prop :=
  ∀ (s : State) (ra rb : Byte) (ha : ra.toNat < 8) (hb : rb.toNat < 8),
    exec (.add ra rb) s =
      .next { s with regs := s.regs.set ra.toNat (s.regs[ra.toNat] + s.regs[rb.toNat]), pc := s.pc + 3#8 }

/-- 41_alu.md R102: MUL writes the low 8 bits of the product. -/
def Obligations.MulWritesLowProduct : Prop :=
  ∀ (s : State) (ra rb : Byte) (ha : ra.toNat < 8) (hb : rb.toNat < 8),
    exec (.mul ra rb) s =
      .next { s with regs := s.regs.set ra.toNat (s.regs[ra.toNat] * s.regs[rb.toNat]), pc := s.pc + 3#8 }

/-- 41_alu.md R103: MOD writes the unsigned remainder when the divisor is not 0, and faults on divisor 0 with nothing
written. -/
def Obligations.ModWritesRemainderOrFaults : Prop :=
  ∀ (s : State) (ra rb : Byte) (ha : ra.toNat < 8) (hb : rb.toNat < 8),
    (s.regs[rb.toNat] ≠ 0#8 → exec (.mod ra rb) s =
      .next { s with
        regs := s.regs.set ra.toNat (BitVec.ofNat 8 (s.regs[ra.toNat].toNat % s.regs[rb.toNat].toNat))
        pc := s.pc + 3#8 }) ∧
    (s.regs[rb.toNat] = 0#8 → exec (.mod ra rb) s =
      .next { s with status := .faulted .divideByZero ⟨s.pc, 0xA4#8⟩ })

/-- 41_alu.md R104, R105, R106: AND, OR and XOR write the bitwise result; XOR of a register with itself clears it. -/
def Obligations.AndOrXorWriteBitwiseResult : Prop :=
  ∀ (s : State) (ra rb : Byte) (ha : ra.toNat < 8) (hb : rb.toNat < 8),
    exec (.and ra rb) s =
      .next { s with regs := s.regs.set ra.toNat (s.regs[ra.toNat] &&& s.regs[rb.toNat]), pc := s.pc + 3#8 } ∧
    exec (.or ra rb) s =
      .next { s with regs := s.regs.set ra.toNat (s.regs[ra.toNat] ||| s.regs[rb.toNat]), pc := s.pc + 3#8 } ∧
    exec (.xor ra rb) s =
      .next { s with regs := s.regs.set ra.toNat (s.regs[ra.toNat] ^^^ s.regs[rb.toNat]), pc := s.pc + 3#8 } ∧
    exec (.xor ra ra) s = .next { s with regs := s.regs.set ra.toNat 0x00#8, pc := s.pc + 3#8 }

/-- 41_alu.md R107: NOT writes the complement of its one register and advances PC by 3. -/
def Obligations.NotWritesComplement : Prop :=
  ∀ (s : State) (ra : Byte) (ha : ra.toNat < 8),
    exec (.not ra) s =
      .next { s with regs := s.regs.set ra.toNat (~~~s.regs[ra.toNat]), pc := s.pc + 3#8 }

/-- 41_alu.md R108: SHL shifts left by the whole count x[rb]; a count of 8 or more gives 0. -/
def Obligations.ShlShiftsLeftByWholeCount : Prop :=
  ∀ (s : State) (ra rb : Byte) (ha : ra.toNat < 8) (hb : rb.toNat < 8),
    exec (.shl ra rb) s =
      .next { s with regs := s.regs.set ra.toNat (s.regs[ra.toNat] <<< s.regs[rb.toNat].toNat), pc := s.pc + 3#8 } ∧
    (8 ≤ s.regs[rb.toNat].toNat →
      exec (.shl ra rb) s = .next { s with regs := s.regs.set ra.toNat 0x00#8, pc := s.pc + 3#8 })

/-- 41_alu.md R109: SHR shifts right logically by the whole count x[rb]; a count of 8 or more gives 0. -/
def Obligations.ShrShiftsRightByWholeCount : Prop :=
  ∀ (s : State) (ra rb : Byte) (ha : ra.toNat < 8) (hb : rb.toNat < 8),
    exec (.shr ra rb) s =
      .next { s with regs := s.regs.set ra.toNat (s.regs[ra.toNat] >>> s.regs[rb.toNat].toNat), pc := s.pc + 3#8 } ∧
    (8 ≤ s.regs[rb.toNat].toNat →
      exec (.shr ra rb) s = .next { s with regs := s.regs.set ra.toNat 0x00#8, pc := s.pc + 3#8 })

/-- 41_alu.md R110: CMP writes FL from an unsigned compare and no register. -/
def Obligations.CmpSetsOneFlag : Prop :=
  ∀ (s : State) (ra rb : Byte) (ha : ra.toNat < 8) (hb : rb.toNat < 8),
    exec (.cmp ra rb) s =
      .next { s with
        fl := if s.regs[ra.toNat] = s.regs[rb.toNat] then 0x01#8
              else if s.regs[rb.toNat].toNat < s.regs[ra.toNat].toNat then 0x02#8 else 0x04#8
        pc := s.pc + 3#8 }

/-! ### Data movement and stack instructions (42_data_stack.md) -/

/-- 42_data_stack.md R130: LDI writes the immediate byte as it stands. -/
def Obligations.LdiWritesImmediate : Prop :=
  ∀ (s : State) (r imm : Byte) (hr : r.toNat < 8),
    exec (.ldi r imm) s = .next { s with regs := s.regs.set r.toNat imm, pc := s.pc + 3#8 }

/-- 42_data_stack.md R131: PRN appends the register's byte to the output and advances PC by 2. -/
def Obligations.PrnEmitsRegister : Prop :=
  ∀ (s : State) (r : Byte) (hr : r.toNat < 8),
    exec (.prn r) s = .next { s with out := s.out ++ [s.regs[r.toNat]], pc := s.pc + 2#8 }

/-- 42_data_stack.md R132: PUSH decrements SP, stores x[r] as read after the decrement in the cell SP then addresses,
and leaves every other cell, register and flag alone. (For r = 7 the order is the spec's decision D14, log 14.) -/
def Obligations.PushStoresBelowStack : Prop :=
  ∀ (s : State) (r : Byte) (hr : r.toNat < 8),
    let newRegs := s.regs.set 7 (s.regs[7] - 1#8)
    ∃ t, exec (.push r) s = .next t ∧
      t = { s with regs := newRegs, pc := s.pc + 2#8, mem := t.mem } ∧
      ∀ a, t.load a = if a = s.regs[7] - 1#8 then newRegs[r.toNat] else s.load a

/-- 42_data_stack.md R133: POP loads the cell SP addresses into x[r], then increments SP, and stores nothing. (For r = 7
the increment acts on the loaded byte: the spec's decision D14, log 14.) -/
def Obligations.PopLoadsThenIncrements : Prop :=
  ∀ (s : State) (r : Byte) (hr : r.toNat < 8),
    let loaded := s.regs.set r.toNat (s.load s.regs[7])
    exec (.pop r) s = .next { s with regs := loaded.set 7 (loaded[7] + 1#8), pc := s.pc + 2#8 }

/-! ### Control transfer (43_control.md) -/

/-- 43_control.md R150: CALL decrements SP, stores pc + 2 in the cell SP then addresses, and jumps to x[r] as read after
the decrement; every other cell, register and flag is unchanged. (For r = 7 the order is decision D14, log 14.) -/
def Obligations.CallPushesReturnAddress : Prop :=
  ∀ (s : State) (r : Byte) (hr : r.toNat < 8),
    let newRegs := s.regs.set 7 (s.regs[7] - 1#8)
    ∃ t, exec (.call r) s = .next t ∧
      t = { s with regs := newRegs, pc := newRegs[r.toNat], mem := t.mem } ∧
      ∀ a, t.load a = if a = s.regs[7] - 1#8 then s.pc + 2#8 else s.load a

/-- 43_control.md R151: RET sets PC from the cell SP addresses and increments SP, in every state, and stores nothing. -/
def Obligations.RetPopsProgramCounter : Prop :=
  ∀ s : State,
    exec .ret s = .next { s with pc := s.load s.regs[7], regs := s.regs.set 7 (s.regs[7] + 1#8) }

/-- 43_control.md R152: JMP changes PC alone. -/
def Obligations.JmpSetsProgramCounter : Prop :=
  ∀ (s : State) (r : Byte) (hr : r.toNat < 8), exec (.jmp r) s = .next { s with pc := s.regs[r.toNat] }

/-- 43_control.md R153: JEQ jumps when FL bit 0 is 1 and falls through to pc + 2 otherwise. -/
def Obligations.JeqJumpsWhenEqual : Prop :=
  ∀ (s : State) (r : Byte) (hr : r.toNat < 8),
    exec (.jeq r) s = .next { s with pc := if s.fl.getLsbD 0 then s.regs[r.toNat] else s.pc + 2#8 }

/-- 43_control.md R154: JNE jumps when FL bit 0 is 0 and falls through to pc + 2 otherwise. -/
def Obligations.JneJumpsWhenNotEqual : Prop :=
  ∀ (s : State) (r : Byte) (hr : r.toNat < 8),
    exec (.jne r) s = .next { s with pc := if s.fl.getLsbD 0 then s.pc + 2#8 else s.regs[r.toNat] }

/-- 43_control.md R155 (that PC and the rest stay is marked [derived] there): HLT changes the status to Halted and
nothing else, in every state. -/
def Obligations.HltHaltsAndChangesNothingElse : Prop :=
  ∀ s : State, exec .hlt s = .next { s with status := .halted }

/-! ### Rules over all instructions -/

/-- 30_encoding.md R60 and 40_dispatcher.md R89: an instruction that does not transfer control, halt or fault advances
PC by its length in bytes, NOT by 3 (mod 256, the spec's decision D3, log 3). -/
def Obligations.PcAdvancesByEncodedLength : Prop :=
  ∀ (i : Instr) (s t : State), exec i s = .next t → t.status = .running →
    (∀ r, i ≠ .call r ∧ i ≠ .jmp r) → i ≠ .ret →
    (∀ r, i = .jeq r → s.fl.getLsbD 0 = false) → (∀ r, i = .jne r → s.fl.getLsbD 0 = true) →
    t.pc = s.pc + BitVec.ofNat 8 (encode i).length

/-- 20_memory.md R43 (marked [derived] there): beyond the fetch, memory is written only by PUSH and CALL, in the one
cell below SP, and read only by POP and RET, in the one cell SP addresses. -/
def Obligations.MemoryTouchedOnlyThroughSp : Prop :=
  (∀ (i : Instr) (s t : State) (a : Byte), exec i s = .next t → t.load a ≠ s.load a →
    a = s.regs[7] - 1#8 ∧ ∃ r, i = .push r ∨ i = .call r) ∧
  ∀ (i : Instr) (s : State) (a v : Byte), (a ≠ s.regs[7] ∨ i ≠ .ret ∧ ∀ r, i ≠ .pop r) →
    ∃ t u, exec i s = .next t ∧ exec i (s.store a v.toNat) = .next u ∧
      u.regs = t.regs ∧ u.pc = t.pc ∧ u.fl = t.fl ∧ u.status = t.status ∧ u.out = t.out

/-- 10_state.md R21 (marked [derived] there), the column "writes": an instruction changes no general register but those
its row names. -/
def Obligations.OnlyNamedRegistersChange : Prop :=
  ∀ (i : Instr) (s t : State) (k : RegIdx), exec i s = .next t → t.reg k ≠ s.reg k →
    match i with
    | .add ra _ | .mul ra _ | .mod ra _ | .and ra _ | .or ra _ | .xor ra _ | .shl ra _ | .shr ra _ | .not ra
    | .ldi ra _ => k.val = ra.toNat
    | .push _ | .call _ | .ret => k.val = 7
    | .pop r => k.val = r.toNat ∨ k.val = 7
    | .cmp _ _ | .prn _ | .jmp _ | .jeq _ | .jne _ | .hlt => False

/-- 10_state.md R21 (marked [derived] there), the column "reads": a register the row does not name has no influence on
PC, FL, memory, output, status or any other register. -/
def Obligations.OnlyNamedRegistersAreRead : Prop :=
  ∀ (i : Instr) (s : State) (k : RegIdx) (v : Byte),
    (match i with
      | .add ra rb | .mul ra rb | .mod ra rb | .and ra rb | .or ra rb | .xor ra rb | .shl ra rb | .shr ra rb
      | .cmp ra rb => k.val ≠ ra.toNat ∧ k.val ≠ rb.toNat
      | .not ra | .prn ra | .jmp ra | .jeq ra | .jne ra => k.val ≠ ra.toNat
      | .push r | .call r => k.val ≠ r.toNat ∧ k.val ≠ 7
      | .pop _ | .ret => k.val ≠ 7
      | .ldi _ _ | .hlt => True) →
    ∃ t u, exec i s = .next t ∧ exec i (s.setReg k v.toNat) = .next u ∧
      u.pc = t.pc ∧ u.fl = t.fl ∧ u.mem = t.mem ∧ u.out = t.out ∧ u.status = t.status ∧
      ∀ j, j ≠ k → u.reg j = t.reg j

/-- 42_data_stack.md R134: PUSH r then POP r leaves every register as it was, SP too, for every r, R7 included. (That R7
is included is the spec's inference, from decision D14, log 14.) -/
def Obligations.PushThenPopRestoresRegisters : Prop :=
  ∀ (s : State) (r : Byte), r.toNat < 8 →
    ∃ t u, exec (.push r) s = .next t ∧ exec (.pop r) t = .next u ∧ u.regs = s.regs

/-- 43_control.md R151 and S4 of 95_test_vectors.md: a RET in any later state whose SP and pushed cell are as CALL left
them returns to the address 2 bytes past the CALL, and restores SP. -/
def Obligations.CallThenRetReturnsPastTheCall : Prop :=
  ∀ (s : State) (r : Byte), r.toNat < 8 →
    ∃ t, exec (.call r) s = .next t ∧
      ∀ u : State, u.sp = t.sp → u.load u.sp = t.load t.sp →
        ∃ w, exec .ret u = .next w ∧ w.pc = s.pc + 2#8 ∧ w.sp = s.sp

/-- S5 of 95_test_vectors.md (41_alu.md R110, 43_control.md R153 and R154): after CMP, JEQ jumps if and only if the
operands were equal, and JNE if and only if they were not. -/
def Obligations.BranchFollowsCompare : Prop :=
  ∀ (s : State) (ra rb r : Byte) (ha : ra.toNat < 8) (hb : rb.toNat < 8) (hr : r.toNat < 8),
    ∃ t u w, exec (.cmp ra rb) s = .next t ∧ exec (.jeq r) t = .next u ∧ exec (.jne r) t = .next w ∧
      u.pc = (if s.regs[ra.toNat] = s.regs[rb.toNat] then s.regs[r.toNat] else s.pc + 5#8) ∧
      w.pc = (if s.regs[ra.toNat] = s.regs[rb.toNat] then s.pc + 5#8 else s.regs[r.toNat])

/-- 20_memory.md R53 (the spec's decision D16, log 16): a CALL whose push lands on its own operand byte still uses the
operand byte it fetched. -/
def Obligations.CallKeepsItsFetchedOperand : Prop :=
  ∀ (s : State) (r : Byte) (hr : r.toNat < 8), s.status = .running → s.load s.pc = 0x50#8 →
    s.load (s.pc + 1#8) = r → s.regs[7] - 1#8 = s.pc + 1#8 →
    ∃ t, step s = .next t ∧ t.pc = (s.regs.set 7 (s.regs[7] - 1#8))[r.toNat] ∧ t.load (s.pc + 1#8) = s.pc + 2#8

/-- 20_memory.md R53 and 70_reset_and_hazards.md R196 (the spec's decision D16, log 16): a byte pushed onto the next
instruction's opcode cell is the opcode the next step fetches. -/
def Obligations.PushedByteIsFetchedNext : Prop :=
  ∀ (s : State) (r : Byte) (hr : r.toNat < 7), s.status = .running → s.load s.pc = 0x45#8 →
    s.load (s.pc + 1#8) = r → s.regs[7] - 1#8 = s.pc + 2#8 →
    ∃ t, step s = .next t ∧ t.pc = s.pc + 2#8 ∧ (fetch t).opcode = s.regs[r.toNat]

/-- 40_dispatcher.md R92 and 43_control.md R152: a JMP to its own address never ends the run, whatever the host's step
budget. -/
def Obligations.JumpToItselfNeverEnds : Prop :=
  ∀ (s : State) (r : Byte) (hr : r.toNat < 8) (budget : Nat), s.status = .running → s.load s.pc = 0x54#8 →
    s.load (s.pc + 1#8) = r → s.regs[r.toNat] = s.pc → core.run budget s = .next s

/-! ### Ports -/

/-- 40_dispatcher.md R83 (the spec's decision D9, log 9): a running core's step makes one trace record, of PC, the three
fetched bytes and the registers before the step executes; a stopped core makes none. -/
def Obligations.TraceShowsStateBeforeExecution : Prop :=
  ∀ s : State,
    (s.status = .running → tracePort s =
      some ⟨s.pc, ⟨s.load s.pc, s.load (s.pc + 1#8), s.load (s.pc + 2#8)⟩, s.regs⟩) ∧
    (s.status ≠ .running → tracePort s = none)

/-- 60_exceptions.md R170 and 40_dispatcher.md R91: the fault reason codes (the spec's decision D7, log 7), and the exit
codes: none while Running, 0 for Halted, 1 for UnknownOpcode, nonzero for every fault, whatever the OPEN parameter is
(log 15). -/
def Obligations.FaultCodesAndExitCodes : Prop :=
  Fault.code .unknownOpcode = 1 ∧ Fault.code .divideByZero = 3 ∧ Fault.code .invalidRegister = 4 ∧
  ∀ s : State,
    (s.status = .running ↔ exitCode s = none) ∧ (s.status = .halted ↔ exitCode s = some 0) ∧
    ∀ d, s.status = .faulted .unknownOpcode d → exitCode s = some 1

/-- The model's own placing of an instruction for the host (log 24): the next step fetches and runs exactly the
instruction that the decoder reads from the word. -/
def Obligations.FetchWordIsRunNext : Prop :=
  ∀ (s : State) (nbits w : Nat) (i : Instr), decodeTableWord nbits w = some i →
    step (s.withFetchWord nbits w) = exec i (s.withFetchWord nbits w)

/-! ### Encoding -/

/-- Words written out from 30_encoding.md R61 and R63 decode to the instructions they stand for. (The opcode bytes are
the spec's decision D1, log 1.) -/
def Obligations.WrittenOutWordsDecode : Prop :=
  decode 0b10000010#8 0b00000000#8 0b00001000#8 = .ok (.ldi 0#8 8#8) ∧
  decode 0b10100010#8 0b00000000#8 0b00000001#8 = .ok (.mul 0#8 1#8) ∧
  decode 0b01101001#8 0b00000010#8 0b11111111#8 = .ok (.not 2#8) ∧
  decode 0b01000101#8 0b00000111#8 0b00000000#8 = .ok (.push 7#8) ∧
  decode 0b01010000#8 0b00000001#8 0b11111111#8 = .ok (.call 1#8) ∧
  decode 0b00000001#8 0b11111111#8 0b11111111#8 = .ok .hlt ∧
  decode 0b10100001#8 0b00000000#8 0b00000001#8 = .error (.unknownOpcode 0xA1#8)

/-- 30_encoding.md R63, R61 and R62: which instruction each of the 20 opcode bytes is, with opA as its first operand
(r, ra) and opB as its second (rb, imm), the ignored bytes at any value; R65 and R66 (the spec's decision D2, log 2): the
decoder matches the whole opcode byte against these 20 values, and every other byte, whatever its bit 5, decodes to
nothing, whichever bytes follow. (The byte values are the spec's decision D1, log 1.) -/
def Obligations.DecodeMatchesExactOpcodeByte : Prop :=
  let legal : List Byte := [0x01#8, 0x11#8, 0x45#8, 0x46#8, 0x47#8, 0x50#8, 0x54#8, 0x55#8, 0x56#8, 0x69#8, 0x82#8,
    0xA0#8, 0xA2#8, 0xA4#8, 0xA7#8, 0xA8#8, 0xAA#8, 0xAB#8, 0xAC#8, 0xAD#8]
  (∀ opA opB : Byte,
    decode 0x01#8 opA opB = .ok .hlt ∧
    decode 0x11#8 opA opB = .ok .ret ∧
    decode 0x45#8 opA opB = .ok (.push opA) ∧
    decode 0x46#8 opA opB = .ok (.pop opA) ∧
    decode 0x47#8 opA opB = .ok (.prn opA) ∧
    decode 0x50#8 opA opB = .ok (.call opA) ∧
    decode 0x54#8 opA opB = .ok (.jmp opA) ∧
    decode 0x55#8 opA opB = .ok (.jeq opA) ∧
    decode 0x56#8 opA opB = .ok (.jne opA) ∧
    decode 0x69#8 opA opB = .ok (.not opA) ∧
    decode 0x82#8 opA opB = .ok (.ldi opA opB) ∧
    decode 0xA0#8 opA opB = .ok (.add opA opB) ∧
    decode 0xA2#8 opA opB = .ok (.mul opA opB) ∧
    decode 0xA4#8 opA opB = .ok (.mod opA opB) ∧
    decode 0xA7#8 opA opB = .ok (.cmp opA opB) ∧
    decode 0xA8#8 opA opB = .ok (.and opA opB) ∧
    decode 0xAA#8 opA opB = .ok (.or opA opB) ∧
    decode 0xAB#8 opA opB = .ok (.xor opA opB) ∧
    decode 0xAC#8 opA opB = .ok (.shl opA opB) ∧
    decode 0xAD#8 opA opB = .ok (.shr opA opB)) ∧
  ∀ opcode opA opB : Byte,
    (opcode ∈ legal → ∃ i, decode opcode opA opB = .ok i ∧ opcodeByte i.mnemonic = opcode) ∧
    (opcode ∉ legal → decode opcode opA opB = .error (.unknownOpcode opcode))

/-- Decode and encode agree, for every instruction, under EVERY injective OPCODE (92_eei_decisions.md D1 asks only that
it is injective): the bytes of an instruction, followed by any bytes, read back as it with the following bytes left
over, and the three-byte window the core fetches at its first byte decodes to it. -/
def Obligations.DecodeOfEncodeIsIdentity : Prop :=
  ∀ op : Mnemonic → Byte, Function.Injective op → ∀ (i : Instr) (rest : List Byte),
    decodeListWith op (encodeWith op i ++ rest) = .ok (i, rest) ∧
    ∀ (b0 b1 b2 : Byte) (more : List Byte), encodeWith op i ++ rest = b0 :: b1 :: b2 :: more →
      decodeWith op b0 b1 b2 = .ok i

/-- The other direction: three fetched bytes that decode are the bytes of the instruction they decode to, but for the
bytes its format ignores (NOT's pad among them). -/
def Obligations.EncodeOfDecodeGivesUsedBytes : Prop :=
  ∀ (b0 b1 b2 : Byte) (i : Instr), decode b0 b1 b2 = .ok i →
    encode i = if i.mnemonic = .not then [b0, b1, 0x00#8] else [b0, b1, b2].take i.mnemonic.length

/-- A whole program laid out byte after byte reads back as the same instructions, under every injective OPCODE
(30_encoding.md R67 and R68: the length comes from the opcode byte alone). -/
def Obligations.ProgramBytesReadBack : Prop :=
  ∀ op : Mnemonic → Byte, Function.Injective op → ∀ p : List Instr,
    decodeProgramWith op p.length (encodeProgramWith op p) = .ok p

/-! ### The invariant -/

/-- Every step from every state that meets the invariant leads to one that meets it: canonical memory, a legal FL
(10_state.md R28), a halted PC on an HLT (43_control.md R155), and a fault record that names the PC, the byte there and
a fitting reason (60_exceptions.md R170 to R174, R177). -/
def Obligations.StepKeepsMachineInvariant : Prop :=
  ∀ s t : State, s.Inv → step s = .next t → t.Inv

/-- The reset state meets the machine's invariant, and so does every state the reset port answers: FL is legal and the
status fits, by 10_state.md R34 and 70_reset_and_hazards.md R190, and memory is in canonical form, which is no rule of the
spec but the model's own choice of representation (log 23). -/
def Obligations.ResetEstablishesInvariant : Prop :=
  State.reset.Inv ∧ ∀ (image : List Byte) (t : State), resetWith image = .next t → t.Inv
end

