-- ==== Sys2Proof/Laws/Decode.lean ====
section
/-! SUPPORT. What the decoder's table lookup can answer. -/

namespace Sys2Proof

theorem Mnemonic.mem_all (m : Mnemonic) : m ∈ Mnemonic.all := by cases m <;> decide

/-- A byte that is found is the opcode of what it is found as. -/
theorem mnemonicOf_eq_some {op : Mnemonic → Byte} {b : Byte} {m : Mnemonic} (h : mnemonicOf op b = some m) :
    op m = b := by
  simpa using List.find?_some h

/-- A byte that is not found is no instruction's opcode. -/
theorem mnemonicOf_eq_none {op : Mnemonic → Byte} {b : Byte} : mnemonicOf op b = none ↔ ∀ m, op m ≠ b := by
  simp only [mnemonicOf, List.find?_eq_none, beq_iff_eq]
  exact ⟨fun h m => h m m.mem_all, fun h m _ => h m⟩

/-- The values of 30_encoding.md R63 are pairwise different. -/
theorem opcodeByte_injective : Function.Injective opcodeByte := by
  intro a b; cases a <;> cases b <;> decide

/-- The two ways `decodeWith` can answer. -/
theorem decodeWith_cases (op : Mnemonic → Byte) (b x y : Byte) :
    (∃ m, mnemonicOf op b = some m ∧ decodeWith op b x y = .ok (assemble m x y)) ∨
      (mnemonicOf op b = none ∧ decodeWith op b x y = .error (.unknownOpcode b)) := by
  unfold decodeWith
  cases h : mnemonicOf op b with
  | some m => exact .inl ⟨m, rfl, rfl⟩
  | none => exact .inr ⟨rfl, rfl⟩

@[simp] theorem assemble_mnemonic (m : Mnemonic) (x y : Byte) : (assemble m x y).mnemonic = m := by
  cases m <;> rfl

end Sys2Proof
end

