-- ==== Sys2Proof/Laws/State.lean ====
section
/-! SUPPORT. One lemma per field per update of State, so that no later proof unfolds a record update. -/

namespace Sys2Proof.Machine

variable (s : State) (i j : RegIdx) (v t : Int) (a b : Byte) (n : Nat) (st : Status)

/-! ### setReg -/
theorem setReg_regs : (s.setReg i v).regs = s.regs.set i (narrow v) := rfl
@[simp] theorem setReg_pc : (s.setReg i v).pc = s.pc := rfl
@[simp] theorem setReg_fl : (s.setReg i v).fl = s.fl := rfl
@[simp] theorem setReg_mem : (s.setReg i v).mem = s.mem := rfl
@[simp] theorem setReg_status : (s.setReg i v).status = s.status := rfl
@[simp] theorem setReg_out : (s.setReg i v).out = s.out := rfl

/-! ### setPc -/
@[simp] theorem setPc_pc : (s.setPc t).pc = narrow t := rfl
@[simp] theorem setPc_regs : (s.setPc t).regs = s.regs := rfl
@[simp] theorem setPc_fl : (s.setPc t).fl = s.fl := rfl
@[simp] theorem setPc_mem : (s.setPc t).mem = s.mem := rfl
@[simp] theorem setPc_status : (s.setPc t).status = s.status := rfl
@[simp] theorem setPc_out : (s.setPc t).out = s.out := rfl
@[simp] theorem setPc_reg : (s.setPc t).reg i = s.reg i := rfl

/-! ### advance -/
@[simp] theorem advance_pc : (s.advance n).pc = narrow (s.pc.toNat + n) := rfl
@[simp] theorem advance_regs : (s.advance n).regs = s.regs := rfl
@[simp] theorem advance_fl : (s.advance n).fl = s.fl := rfl
@[simp] theorem advance_mem : (s.advance n).mem = s.mem := rfl
@[simp] theorem advance_status : (s.advance n).status = s.status := rfl
@[simp] theorem advance_out : (s.advance n).out = s.out := rfl

/-! ### jumpTo -/
@[simp] theorem jumpTo_regs : (s.jumpTo i).regs = s.regs := rfl
@[simp] theorem jumpTo_fl : (s.jumpTo i).fl = s.fl := rfl
@[simp] theorem jumpTo_mem : (s.jumpTo i).mem = s.mem := rfl
@[simp] theorem jumpTo_status : (s.jumpTo i).status = s.status := rfl
@[simp] theorem jumpTo_out : (s.jumpTo i).out = s.out := rfl

/-! ### setFl -/
@[simp] theorem setFl_fl : (s.setFl a).fl = a := rfl
@[simp] theorem setFl_regs : (s.setFl a).regs = s.regs := rfl
@[simp] theorem setFl_pc : (s.setFl a).pc = s.pc := rfl
@[simp] theorem setFl_mem : (s.setFl a).mem = s.mem := rfl
@[simp] theorem setFl_status : (s.setFl a).status = s.status := rfl
@[simp] theorem setFl_out : (s.setFl a).out = s.out := rfl

/-! ### store -/
theorem store_mem : (s.store a v).mem = memWrite s.mem a v := rfl
@[simp] theorem store_regs : (s.store a v).regs = s.regs := rfl
@[simp] theorem store_pc : (s.store a v).pc = s.pc := rfl
@[simp] theorem store_fl : (s.store a v).fl = s.fl := rfl
@[simp] theorem store_status : (s.store a v).status = s.status := rfl
@[simp] theorem store_out : (s.store a v).out = s.out := rfl
@[simp] theorem store_reg : (s.store a v).reg i = s.reg i := rfl

/-! ### emit -/
@[simp] theorem emit_out : (s.emit a).out = s.out ++ [a] := rfl
@[simp] theorem emit_regs : (s.emit a).regs = s.regs := rfl
@[simp] theorem emit_pc : (s.emit a).pc = s.pc := rfl
@[simp] theorem emit_fl : (s.emit a).fl = s.fl := rfl
@[simp] theorem emit_mem : (s.emit a).mem = s.mem := rfl
@[simp] theorem emit_status : (s.emit a).status = s.status := rfl

/-! ### setStatus -/
@[simp] theorem setStatus_status : (s.setStatus st).status = st := rfl
@[simp] theorem setStatus_regs : (s.setStatus st).regs = s.regs := rfl
@[simp] theorem setStatus_pc : (s.setStatus st).pc = s.pc := rfl
@[simp] theorem setStatus_fl : (s.setStatus st).fl = s.fl := rfl
@[simp] theorem setStatus_mem : (s.setStatus st).mem = s.mem := rfl
@[simp] theorem setStatus_out : (s.setStatus st).out = s.out := rfl

/-! ### the stack operations: decSp and incSp write R7 alone, pushWith writes R7 and one cell -/
theorem decSp_eq : s.decSp = s.setReg spIdx ((s.sp.toNat : Int) - 1) := rfl
theorem incSp_eq : s.incSp = s.setReg spIdx (s.sp.toNat + 1) := rfl
@[simp] theorem pushWith_pc (f : State → Int) : (s.pushWith f).pc = s.pc := rfl
@[simp] theorem pushWith_fl (f : State → Int) : (s.pushWith f).fl = s.fl := rfl
@[simp] theorem pushWith_status (f : State → Int) : (s.pushWith f).status = s.status := rfl
@[simp] theorem pushWith_out (f : State → Int) : (s.pushWith f).out = s.out := rfl
@[simp] theorem pushWith_regs (f : State → Int) : (s.pushWith f).regs = s.decSp.regs := rfl
theorem pushWith_mem (f : State → Int) : (s.pushWith f).mem = memWrite s.mem s.decSp.sp (f s.decSp) := rfl

/-- Two states with the same fields are equal. -/
theorem state_ext {s t : State} (hr : s.regs = t.regs) (hp : s.pc = t.pc) (hf : s.fl = t.fl) (hm : s.mem = t.mem)
    (hs : s.status = t.status) (ho : s.out = t.out) : s = t := by
  cases s; cases t; simp_all

end Sys2Proof.Machine
end

