-- ==== Sys2Proof/Laws/Memory.lean ====
section
/-! SUPPORT. Memory: a read after a write, and the canonical form. The read and write laws hold of every list; the
canonical form is kept by every memory operation, and makes memories with equal reads equal data. -/

namespace Sys2Proof.Machine

/-! ### narrow -/

/-- Narrowing a byte's own number gives the byte back. -/
@[simp] theorem narrow_toNat (b : Byte) : narrow (b.toNat : Int) = b := by
  simp [narrow, BitVec.ofInt_natCast]

theorem narrow_natCast (n : Nat) : narrow (n : Int) = BitVec.ofNat 8 n := by
  simp [narrow, BitVec.ofInt_natCast]

/-- `narrow` is the residue mod 256 (00_scope.md R8). -/
theorem narrow_toNat_emod (v : Int) : ((narrow v).toNat : Int) = v % 256 := by
  simp only [narrow, BitVec.toNat_ofInt]; omega

/-- Adding a byte count to an address wraps like the byte sum. -/
theorem narrow_add (b : Byte) (n : Nat) : narrow (b.toNat + n) = b + BitVec.ofNat 8 n := by
  rw [show ((b.toNat : Int) + n) = ((b.toNat + n : Nat) : Int) by simp, narrow_natCast, BitVec.ofNat_add,
    BitVec.ofNat_toNat, BitVec.setWidth_eq]

/-- `SP - 1` wraps like the byte difference. -/
theorem narrow_sub_one (b : Byte) : narrow ((b.toNat : Int) - 1) = b - 1#8 := by
  apply BitVec.eq_of_toNat_eq
  have h := narrow_toNat_emod ((b.toNat : Int) - 1)
  rw [BitVec.toNat_sub]
  have hb := b.isLt
  simp at h ⊢
  omega

/-! ### cells -/

@[simp] theorem memCell_nil (a : Nat) : memCell [] a = Config.cellReset := rfl

theorem memCell_insert_same (a : Nat) (v : Byte) (m : Memory) (h : ∀ c ∈ m, c.1 ≠ a) :
    memCell (memInsert a v m) a = v := by
  induction m with
  | nil => simp [memInsert, memCell]
  | cons c rest ih =>
    obtain ⟨k, x⟩ := c
    have hk : k ≠ a := h (k, x) (by simp)
    have hr := ih fun d hd => h d (by simp [hd])
    unfold memInsert
    split <;> simp [memCell, hk, hr]

theorem memCell_insert_other (a b : Nat) (v : Byte) (m : Memory) (hab : b ≠ a) :
    memCell (memInsert a v m) b = memCell m b := by
  induction m with
  | nil => simp [memInsert, memCell, Ne.symm hab]
  | cons c rest ih =>
    obtain ⟨k, x⟩ := c
    unfold memInsert
    split
    · simp [memCell, Ne.symm hab]
    · simp only [memCell, ih]

theorem memCell_filter_same (a : Nat) (m : Memory) :
    memCell (m.filter fun c => c.1 != a) a = Config.cellReset := by
  induction m with
  | nil => rfl
  | cons c rest ih =>
    obtain ⟨k, x⟩ := c
    by_cases hk : k = a
    · simpa [hk] using ih
    · simpa [hk, memCell] using ih

theorem memCell_filter_other (a b : Nat) (m : Memory) (hab : b ≠ a) :
    memCell (m.filter fun c => c.1 != a) b = memCell m b := by
  induction m with
  | nil => rfl
  | cons c rest ih =>
    obtain ⟨k, x⟩ := c
    by_cases hk : k = a
    · subst hk; simpa [memCell, Ne.symm hab] using ih
    · by_cases hb : k = b <;> simp [hk, hb, memCell, ih, hab]

/-! ### read after write -/

/-- A read of the written address gives the written value mod 256. -/
@[simp] theorem memRead_write_same (m : Memory) (a : Byte) (v : Int) : memRead (memWrite m a v) a = narrow v := by
  unfold memWrite memRead
  split
  · next h => rw [memCell_filter_same, h]
  · exact memCell_insert_same _ _ _ (by simp)

/-- A write leaves every other address alone. -/
theorem memRead_write_other (m : Memory) (a b : Byte) (v : Int) (h : b ≠ a) :
    memRead (memWrite m a v) b = memRead m b := by
  have hn : b.toNat ≠ a.toNat := fun e => h (BitVec.eq_of_toNat_eq e)
  unfold memWrite memRead
  split
  · exact memCell_filter_other _ _ _ hn
  · rw [memCell_insert_other _ _ _ _ hn, memCell_filter_other _ _ _ hn]

/-- Both together: memory after a write, at every address. -/
theorem memRead_write (m : Memory) (a b : Byte) (v : Int) :
    memRead (memWrite m a v) b = if b = a then narrow v else memRead m b := by
  split
  · next h => rw [h, memRead_write_same]
  · next h => exact memRead_write_other m a b v h

/-! ### the canonical form -/

theorem memWf_nil : Memory.wf [] := by simp [Memory.wf]

theorem mem_memInsert (a : Nat) (v : Byte) (m : Memory) (c : Host.Cell) :
    c ∈ memInsert a v m ↔ c = (a, v) ∨ c ∈ m := by
  induction m with
  | nil => simp [memInsert]
  | cons d rest ih =>
    unfold memInsert
    split
    · simp
    · simp only [List.mem_cons, ih]; tauto

theorem memInsert_wf (a : Nat) (v : Byte) (m : Memory) (ha : a < Config.memCells) (hv : v ≠ Config.cellReset)
    (hm : m.wf) (h : ∀ c ∈ m, c.1 ≠ a) : Memory.wf (memInsert a v m) := by
  refine ⟨?_, fun c hc => ?_⟩
  · have hs := hm.1
    clear hm
    induction m with
    | nil => simp [memInsert]
    | cons d rest ih =>
      rw [List.pairwise_cons] at hs
      have hd : d.1 ≠ a := h d (by simp)
      unfold memInsert
      split
      · next hlt =>
        refine List.pairwise_cons.2 ⟨fun c hc => ?_, List.pairwise_cons.2 hs⟩
        rcases List.mem_cons.1 hc with rfl | hc
        · exact hlt
        · exact Nat.lt_trans hlt (hs.1 c hc)
      · next hge =>
        refine List.pairwise_cons.2 ⟨fun c hc => ?_, ih (fun c hc => h c (by simp [hc])) hs.2⟩
        rcases (mem_memInsert a v rest c).1 hc with rfl | hc
        · simp only at hge hd ⊢; omega
        · exact hs.1 c hc
  · rcases (mem_memInsert a v m c).1 hc with rfl | hc
    · exact ⟨ha, hv⟩
    · exact hm.2 c hc

/-- A write keeps the canonical form. -/
theorem memWrite_wf (m : Memory) (a : Byte) (v : Int) (hm : m.wf) : (memWrite m a v).wf := by
  have hf : Memory.wf (m.filter fun c => c.1 != a.toNat) :=
    ⟨hm.1.filter _, fun c hc => hm.2 c (List.mem_filter.1 hc).1⟩
  unfold memWrite
  split
  · exact hf
  · next hv => exact memInsert_wf _ _ _ a.isLt hv hf (by simp)

/-- The image load keeps the canonical form. -/
theorem loadFrom_wf (a : Nat) (bs : List Byte) (m : Memory) (hm : m.wf) : (loadFrom a bs m).wf := by
  induction bs generalizing a m with
  | nil => exact hm
  | cons b bs ih => exact ih (a + 1) _ (memWrite_wf m _ _ hm)

theorem memCell_of_lt (m : Memory) (a : Nat) (h : ∀ c ∈ m, a < c.1) : memCell m a = Config.cellReset := by
  induction m with
  | nil => rfl
  | cons c rest ih =>
    have := h c (by simp)
    simp only [memCell, if_neg (show c.1 ≠ a by omega)]
    exact ih fun d hd => h d (by simp [hd])

/-- In canonical form, memories that read the same in every cell are the same data. -/
theorem memory_ext {m n : Memory} (hm : m.wf) (hn : n.wf) (h : ∀ a, memCell m a = memCell n a) : m = n := by
  induction m generalizing n with
  | nil =>
    cases n with
    | nil => rfl
    | cons d rest =>
      have := h d.1
      simp only [memCell, if_true] at this
      exact absurd this.symm (hn.2 d (by simp)).2
  | cons c m ih =>
    have hmc := List.pairwise_cons.1 hm.1
    cases n with
    | nil =>
      have := h c.1
      simp only [memCell, if_true] at this
      exact absurd this (hm.2 c (by simp)).2
    | cons d n =>
      have hnc := List.pairwise_cons.1 hn.1
      have key : c.1 = d.1 := by
        rcases Nat.lt_trichotomy c.1 d.1 with hlt | heq | hgt
        · have := h c.1
          rw [memCell_of_lt (d :: n) c.1 (by
            intro e he
            rcases List.mem_cons.1 he with rfl | he
            · exact hlt
            · exact Nat.lt_trans hlt (hnc.1 e he))] at this
          simp only [memCell, if_true] at this
          exact absurd this (hm.2 c (by simp)).2
        · exact heq
        · have := h d.1
          rw [memCell_of_lt (c :: m) d.1 (by
            intro e he
            rcases List.mem_cons.1 he with rfl | he
            · exact hgt
            · exact Nat.lt_trans hgt (hmc.1 e he))] at this
          simp only [memCell, if_true] at this
          exact absurd this.symm (hn.2 d (by simp)).2
      have hval : c.2 = d.2 := by
        have := h c.1
        simpa only [memCell, if_true, if_pos key.symm] using this
      have hcd : c = d := Prod.ext key hval
      subst hcd
      congr 1
      refine ih ⟨hmc.2, fun e he => hm.2 e (by simp [he])⟩ ⟨hnc.2, fun e he => hn.2 e (by simp [he])⟩ fun a => ?_
      by_cases ha : c.1 = a
      · subst ha
        rw [memCell_of_lt m _ hmc.1, memCell_of_lt n _ hnc.1]
      · simpa only [memCell, if_neg ha] using h a

/-! ### the same, at the level of State -/

@[simp] theorem load_store_same (s : State) (a : Byte) (v : Int) : (s.store a v).load a = narrow v :=
  memRead_write_same _ _ _

theorem load_store (s : State) (a b : Byte) (v : Int) :
    (s.store a v).load b = if b = a then narrow v else s.load b :=
  memRead_write _ _ _ _

theorem store_wf (s : State) (a : Byte) (v : Int) (h : s.mem.wf) : (s.store a v).mem.wf := memWrite_wf _ _ _ h

end Sys2Proof.Machine
end

