-- ==== Sys2Proof/Laws/Ops.lean ====
section
/-! SUPPORT. One lemma per shared operation: registers, operand fields, fault entry, the ALU shape, the stack. -/

namespace Sys2Proof.Machine

/-! ### registers -/

@[simp] theorem reg_setReg_same (s : State) (i : RegIdx) (v : Int) : (s.setReg i v).reg i = narrow v := by
  simp [State.reg, State.setReg]

theorem reg_setReg_other (s : State) (i j : RegIdx) (v : Int) (h : j ≠ i) : (s.setReg i v).reg j = s.reg j := by
  have hv : i.val ≠ j.val := fun e => h (Fin.ext e.symm)
  simp [State.reg, State.setReg, hv]

/-- A register file after a write, at every register (10_state.md R23). -/
theorem reg_setReg (s : State) (i j : RegIdx) (v : Int) :
    (s.setReg i v).reg j = if j = i then narrow v else s.reg j := by
  split
  · next h => rw [h, reg_setReg_same]
  · next h => exact reg_setReg_other s i j v h

/-- Reading registers through `reg` or through the vector is the same. -/
theorem reg_eq_getElem (s : State) (i : RegIdx) : s.reg i = s.regs[i.val] := rfl

/-- A state whose register is written with the value it holds is unchanged. -/
theorem setReg_self (s : State) (i : RegIdx) : s.setReg i (s.reg i).toNat = s := by
  simp [State.setReg, State.reg]

/-! ### operand fields -/

theorem regIndex_of_lt {f : Byte} (h : f.toNat < 8) : regIndex f = some ⟨f.toNat, h⟩ := dif_pos h

theorem regIndex_of_ge {f : Byte} (h : 7 < f.toNat) : regIndex f = none := dif_neg (by omega)

/-- The register check passes (40_dispatcher.md R88). -/
theorem withReg_of_lt {m : Mnemonic} {f : Byte} {s : State} {body : RegIdx → Result} (h : f.toNat < 8) :
    withReg m f s body = body ⟨f.toNat, h⟩ := by
  simp [withReg, regIndex_of_lt h]

/-- The register check fails (60_exceptions.md R173). -/
theorem withReg_of_ge {m : Mnemonic} {f : Byte} {s : State} {body : RegIdx → Result} (h : 7 < f.toNat) :
    withReg m f s body = raiseFault .invalidRegister (opcodeByte m) s := by
  simp [withReg, regIndex_of_ge h]

/-- Everything a one-field instruction can do. -/
theorem withReg_cases (m : Mnemonic) (f : Byte) (s : State) (body : RegIdx → Result) :
    (∃ h : f.toNat < 8, withReg m f s body = body ⟨f.toNat, h⟩) ∨
      (7 < f.toNat ∧ withReg m f s body = raiseFault .invalidRegister (opcodeByte m) s) := by
  rcases Nat.lt_or_ge f.toNat 8 with h | h
  · exact .inl ⟨h, withReg_of_lt h⟩
  · exact .inr ⟨h, withReg_of_ge h⟩

theorem withRegs_of_lt {m : Mnemonic} {fa fb : Byte} {s : State} {body : RegIdx → RegIdx → Result}
    (ha : fa.toNat < 8) (hb : fb.toNat < 8) :
    withRegs m fa fb s body = body ⟨fa.toNat, ha⟩ ⟨fb.toNat, hb⟩ := by
  simp [withRegs, withReg_of_lt ha, withReg_of_lt hb]

theorem withRegs_of_ge {m : Mnemonic} {fa fb : Byte} {s : State} {body : RegIdx → RegIdx → Result}
    (h : 7 < fa.toNat ∨ 7 < fb.toNat) :
    withRegs m fa fb s body = raiseFault .invalidRegister (opcodeByte m) s := by
  unfold withRegs
  rcases withReg_cases m fa s (fun a => withReg m fb s fun b => body a b) with ⟨ha, e⟩ | ⟨_, e⟩
  · rw [e, withReg_of_ge (by omega)]
  · exact e

/-- Everything a two-field instruction can do. -/
theorem withRegs_cases (m : Mnemonic) (fa fb : Byte) (s : State) (body : RegIdx → RegIdx → Result) :
    (∃ (ha : fa.toNat < 8) (hb : fb.toNat < 8), withRegs m fa fb s body = body ⟨fa.toNat, ha⟩ ⟨fb.toNat, hb⟩) ∨
      ((7 < fa.toNat ∨ 7 < fb.toNat) ∧ withRegs m fa fb s body = raiseFault .invalidRegister (opcodeByte m) s) := by
  by_cases h : 7 < fa.toNat ∨ 7 < fb.toNat
  · exact .inr ⟨h, withRegs_of_ge h⟩
  · exact .inl ⟨by omega, by omega, withRegs_of_lt (by omega) (by omega)⟩

/-! ### fault entry -/

/-- Fault entry answers one next state, and names it whole (60_exceptions.md R177). -/
theorem raiseFault_eq_next {f : Fault} {op : Byte} {s t : State} (h : raiseFault f op s = .next t) :
    t = { s with status := .faulted f ⟨s.pc, op⟩ } := by
  simpa [raiseFault, State.setStatus] using h.symm

/-! ### the ALU shape -/

/-- Everything a two-register ALU instruction can do when it answers a next state. -/
theorem aluBinary_next {m : Mnemonic} {g : Byte → Byte → Int} {ra rb : Byte} {s t : State}
    (h : aluBinary m g ra rb s = .next t) :
    (∃ a b : RegIdx, ra.toNat = a.val ∧ rb.toNat = b.val ∧ t = (s.setReg a (g (s.reg a) (s.reg b))).advance 3) ∨
      ((7 < ra.toNat ∨ 7 < rb.toNat) ∧ t = { s with status := .faulted .invalidRegister ⟨s.pc, opcodeByte m⟩ }) := by
  rcases withRegs_cases m ra rb s fun a b => .next ((s.setReg a (g (s.reg a) (s.reg b))).advance 3) with
    ⟨ha, hb, e⟩ | ⟨hf, e⟩
  · refine .inl ⟨⟨ra.toNat, ha⟩, ⟨rb.toNat, hb⟩, rfl, rfl, ?_⟩
    rw [aluBinary, e] at h
    injection h with h
    exact h.symm
  · exact .inr ⟨hf, raiseFault_eq_next (by rw [← e]; exact h)⟩

/-! ### the narrowed ALU results are the byte operations -/

theorem narrow_aluAdd (a b : Byte) : narrow (aluAdd a b) = a + b := by
  simpa [aluAdd] using narrow_add a b.toNat

theorem narrow_aluMul (a b : Byte) : narrow (aluMul a b) = a * b := by
  rw [aluMul, show ((a.toNat : Int) * b.toNat) = ((a.toNat * b.toNat : Nat) : Int) by simp, narrow_natCast]
  apply BitVec.eq_of_toNat_eq; simp [BitVec.toNat_mul]

theorem narrow_aluMod (a b : Byte) : narrow (aluMod a b) = a % b := by
  rw [aluMod, narrow_natCast]
  apply BitVec.eq_of_toNat_eq
  have := a.isLt
  have := Nat.mod_le a.toNat b.toNat
  simp [BitVec.toNat_umod]
  omega

theorem narrow_aluAnd (a b : Byte) : narrow (aluAnd a b) = a &&& b := narrow_toNat _

theorem narrow_aluOr (a b : Byte) : narrow (aluOr a b) = a ||| b := narrow_toNat _

theorem narrow_aluXor (a b : Byte) : narrow (aluXor a b) = a ^^^ b := narrow_toNat _

theorem narrow_aluNot (a : Byte) : narrow (aluNot a) = ~~~a := by
  apply BitVec.eq_of_toNat_eq
  have h := narrow_toNat_emod (aluNot a)
  have ha := a.isLt
  rw [BitVec.toNat_not]
  simp only [aluNot] at h ⊢
  omega

theorem narrow_aluShl (a b : Byte) : narrow (aluShl a b) = a <<< b.toNat := by
  rw [aluShl, narrow_natCast]
  apply BitVec.eq_of_toNat_eq
  simp [BitVec.toNat_shiftLeft, Nat.shiftLeft_eq]

theorem narrow_aluShr (a b : Byte) : narrow (aluShr a b) = a >>> b.toNat := by
  rw [aluShr, narrow_natCast]
  apply BitVec.eq_of_toNat_eq
  have := a.isLt
  have := Nat.div_le_self a.toNat (2 ^ b.toNat)
  simp [BitVec.toNat_ushiftRight, Nat.shiftRight_eq_div_pow]
  omega

/-! ### flags -/

/-- CMP's value sets exactly one of E, G and L and no other bit. -/
theorem compareFlags_cases (a b : Byte) :
    (compareFlags a b = 0x01#8 ∧ a = b) ∨ (compareFlags a b = 0x02#8 ∧ b < a) ∨ (compareFlags a b = 0x04#8 ∧ a < b) := by
  simp only [compareFlags, BitVec.lt_def]
  split
  · next h => exact .inl ⟨rfl, BitVec.eq_of_toNat_eq h⟩
  · split
    · next h => exact .inr (.inl ⟨rfl, h⟩)
    · exact .inr (.inr ⟨rfl, by omega⟩)

/-! ### the stack -/

/-- The decremented SP. -/
theorem decSp_sp (s : State) : s.decSp.sp = s.sp - 1#8 := by
  rw [State.sp, decSp_eq, reg_setReg_same, narrow_sub_one]

/-- The incremented SP. -/
theorem incSp_sp (s : State) : s.incSp.sp = s.sp + 1#8 := by
  rw [State.sp, incSp_eq, reg_setReg_same]; exact narrow_add s.sp 1

/-- Every cell after a push: the cell at the decremented SP holds the pushed value, every other cell is unchanged. -/
theorem pushWith_load (s : State) (f : State → Int) (a : Byte) :
    (s.pushWith f).load a = if a = s.sp - 1#8 then narrow (f s.decSp) else s.load a := by
  rw [State.load, pushWith_mem, memRead_write, decSp_sp]
  rfl

theorem pushWith_wf (s : State) (f : State → Int) (h : s.mem.wf) : (s.pushWith f).mem.wf := by
  rw [pushWith_mem]; exact memWrite_wf _ _ _ h

end Sys2Proof.Machine
end

