-- ==== Sys2Proof/Laws/PerInstr.lean ====
section
/-! SUPPORT. Statements about every instruction as syntax, one lemma per constructor. -/

namespace Sys2Proof.Laws

/-- The encoding starts with the opcode byte and is as long as 30_encoding.md R61 says, under every OPCODE. -/
def EncodedShape.Statement (i : Instr) : Prop :=
  ∀ op : Mnemonic → Byte, (encodeWith op i).head? = some (op i.mnemonic) ∧ (encodeWith op i).length = i.mnemonic.length

theorem EncodedShape.hlt : EncodedShape.Statement .hlt := fun _ => ⟨rfl, rfl⟩
theorem EncodedShape.ret : EncodedShape.Statement .ret := fun _ => ⟨rfl, rfl⟩
theorem EncodedShape.push (r : Byte) : EncodedShape.Statement (.push r) := fun _ => ⟨rfl, rfl⟩
theorem EncodedShape.pop (r : Byte) : EncodedShape.Statement (.pop r) := fun _ => ⟨rfl, rfl⟩
theorem EncodedShape.prn (r : Byte) : EncodedShape.Statement (.prn r) := fun _ => ⟨rfl, rfl⟩
theorem EncodedShape.call (r : Byte) : EncodedShape.Statement (.call r) := fun _ => ⟨rfl, rfl⟩
theorem EncodedShape.jmp (r : Byte) : EncodedShape.Statement (.jmp r) := fun _ => ⟨rfl, rfl⟩
theorem EncodedShape.jeq (r : Byte) : EncodedShape.Statement (.jeq r) := fun _ => ⟨rfl, rfl⟩
theorem EncodedShape.jne (r : Byte) : EncodedShape.Statement (.jne r) := fun _ => ⟨rfl, rfl⟩
theorem EncodedShape.not (ra : Byte) : EncodedShape.Statement (.not ra) := fun _ => ⟨rfl, rfl⟩
theorem EncodedShape.ldi (r imm : Byte) : EncodedShape.Statement (.ldi r imm) := fun _ => ⟨rfl, rfl⟩
theorem EncodedShape.add (ra rb : Byte) : EncodedShape.Statement (.add ra rb) := fun _ => ⟨rfl, rfl⟩
theorem EncodedShape.mul (ra rb : Byte) : EncodedShape.Statement (.mul ra rb) := fun _ => ⟨rfl, rfl⟩
theorem EncodedShape.mod (ra rb : Byte) : EncodedShape.Statement (.mod ra rb) := fun _ => ⟨rfl, rfl⟩
theorem EncodedShape.cmp (ra rb : Byte) : EncodedShape.Statement (.cmp ra rb) := fun _ => ⟨rfl, rfl⟩
theorem EncodedShape.and (ra rb : Byte) : EncodedShape.Statement (.and ra rb) := fun _ => ⟨rfl, rfl⟩
theorem EncodedShape.or (ra rb : Byte) : EncodedShape.Statement (.or ra rb) := fun _ => ⟨rfl, rfl⟩
theorem EncodedShape.xor (ra rb : Byte) : EncodedShape.Statement (.xor ra rb) := fun _ => ⟨rfl, rfl⟩
theorem EncodedShape.shl (ra rb : Byte) : EncodedShape.Statement (.shl ra rb) := fun _ => ⟨rfl, rfl⟩
theorem EncodedShape.shr (ra rb : Byte) : EncodedShape.Statement (.shr ra rb) := fun _ => ⟨rfl, rfl⟩

end Sys2Proof.Laws
end

