-- ==== Sys2Proof/Laws/Step.lean ====
section
/-! SUPPORT. What a step can do, said once. -/

namespace Sys2Proof.Machine

/-- The three fetched bytes are the cells at pc, pc + 1 and pc + 2 mod 256 (40_dispatcher.md R82). -/
theorem fetch_eq (s : State) : fetch s = ⟨s.load s.pc, s.load (s.pc + 1#8), s.load (s.pc + 2#8)⟩ := by
  have h0 : fetchAddr s 0 = s.pc := by simp [fetchAddr]
  have h1 : fetchAddr s 1 = s.pc + 1#8 := narrow_add _ 1
  have h2 : fetchAddr s 2 = s.pc + 2#8 := narrow_add _ 2
  rw [fetch, h0, h1, h2]

/-- Every way a step can answer a next state. -/
theorem step_next_cases {s t : State} (h : step s = .next t) :
    (∃ m, s.status = .running ∧ mnemonicOf opcodeByte (s.load s.pc) = some m ∧
        exec (assemble m (s.load (s.pc + 1#8)) (s.load (s.pc + 2#8))) s = .next t) ∨
      (s.status = .running ∧ mnemonicOf opcodeByte (s.load s.pc) = none ∧
        t = { s with status := .faulted .unknownOpcode ⟨s.pc, s.load s.pc⟩ }) ∨
      (s.status ≠ .running ∧ t = s) := by
  unfold step at h
  split at h
  · next hs =>
    simp only [runCycle, Latch.decoded, decode, fetch_eq] at h
    rcases decodeWith_cases opcodeByte (s.load s.pc) (s.load (s.pc + 1#8)) (s.load (s.pc + 2#8)) with
      ⟨m, hm, e⟩ | ⟨hm, e⟩
    · rw [e] at h; exact .inl ⟨m, hs, hm, h⟩
    · rw [e] at h; exact .inr (.inl ⟨hs, hm, raiseFault_eq_next h⟩)
  · next hs => injection h with h; exact .inr (.inr ⟨by simp [hs], h.symm⟩)
  · next hs => injection h with h; exact .inr (.inr ⟨by simp [hs], h.symm⟩)

/-- Reset holds nothing in memory. -/
@[simp] theorem reset_load (a : Byte) : State.reset.load a = Config.cellReset := rfl

end Sys2Proof.Machine
end

