-- ==== Sys2Proof/Tests/Slice0.lean ====
section
/-! SUPPORT. Tests. Expected results are those of spec/95_test_vectors.md (named in each comment) or worked out by hand
from the rule named; and one witness for the hypotheses of every obligation that has some. -/

namespace Sys2Proof.Tests

open Sys2Proof.Machine

/-! ### helpers -/

/-- The reset state with the bytes placed from `pc` and PC set there. -/
def bootAt (pc : Byte) (bytes : List Byte) : State :=
  { State.reset with mem := loadFrom pc.toNat bytes [], pc := pc }

/-- The reset state with the bytes at address 0. -/
def boot (bytes : List Byte) : State := bootAt 0 bytes

/-- The reset state, ready to run the bytes, with R0 and R1 given. -/
def withR01 (bytes : List Byte) (r0 r1 : Int) : State := ((boot bytes).setReg 0 r0).setReg 1 r1

/-- A look at the next state, if there is one. -/
def look {α : Type} (r : Result) (f : State → α) : Option α :=
  match r with
  | .next t => some (f t)
  | .fault _ => none
  | .refused _ => none

/-! ### well-formedness: the check refuses each ill-formed field -/

theorem smoke_wf_opA_of_one_field : Instr.wf (.push 8#8) = false := by decide
theorem smoke_wf_not_field : Instr.wf (.not 255#8) = false := by decide
theorem smoke_wf_ldi_field : Instr.wf (.ldi 8#8 0#8) = false := by decide
theorem smoke_wf_opA_of_two_fields : Instr.wf (.add 8#8 0#8) = false := by decide
theorem smoke_wf_opB_of_two_fields : Instr.wf (.cmp 0#8 8#8) = false := by decide
theorem smoke_wf_accepts : Instr.wf (.mod 7#8 0#8) = true ∧ Instr.wf (.ldi 7#8 255#8) = true ∧ Instr.wf .hlt = true := by
  decide

/-! ### decoding: a word of every instruction, written out from 30_encoding.md R61 and R63 -/

theorem test_decode_hlt : decode 0b00000001#8 0b11111111#8 0b11111111#8 = .ok .hlt := rfl
theorem test_decode_ret : decode 0b00010001#8 0b10101010#8 0b01010101#8 = .ok .ret := rfl
theorem test_decode_push : decode 0b01000101#8 0b00000011#8 0b11111111#8 = .ok (.push 3#8) := rfl
theorem test_decode_pop : decode 0b01000110#8 0b00000110#8 0b11111111#8 = .ok (.pop 6#8) := rfl
theorem test_decode_prn : decode 0b01000111#8 0b00000010#8 0b11111111#8 = .ok (.prn 2#8) := rfl
theorem test_decode_call : decode 0b01010000#8 0b00000001#8 0b11111111#8 = .ok (.call 1#8) := rfl
theorem test_decode_jmp : decode 0b01010100#8 0b00000111#8 0b00000000#8 = .ok (.jmp 7#8) := rfl
theorem test_decode_jeq : decode 0b01010101#8 0b00000101#8 0b00000000#8 = .ok (.jeq 5#8) := rfl
theorem test_decode_jne : decode 0b01010110#8 0b00000100#8 0b00000000#8 = .ok (.jne 4#8) := rfl
theorem test_decode_not : decode 0b01101001#8 0b00000010#8 0b11111111#8 = .ok (.not 2#8) := rfl
theorem test_decode_ldi : decode 0b10000010#8 0b00000001#8 0b10010110#8 = .ok (.ldi 1#8 0x96#8) := rfl
theorem test_decode_add : decode 0b10100000#8 0b00000001#8 0b00000010#8 = .ok (.add 1#8 2#8) := rfl
theorem test_decode_mul : decode 0b10100010#8 0b00000011#8 0b00000100#8 = .ok (.mul 3#8 4#8) := rfl
theorem test_decode_mod : decode 0b10100100#8 0b00000101#8 0b00000110#8 = .ok (.mod 5#8 6#8) := rfl
theorem test_decode_cmp : decode 0b10100111#8 0b00000111#8 0b00000000#8 = .ok (.cmp 7#8 0#8) := rfl
theorem test_decode_and : decode 0b10101000#8 0b00000110#8 0b00000001#8 = .ok (.and 6#8 1#8) := rfl
theorem test_decode_or : decode 0b10101010#8 0b00000010#8 0b00000101#8 = .ok (.or 2#8 5#8) := rfl
theorem test_decode_xor : decode 0b10101011#8 0b00000011#8 0b00000111#8 = .ok (.xor 3#8 7#8) := rfl
theorem test_decode_shl : decode 0b10101100#8 0b00000100#8 0b00000011#8 = .ok (.shl 4#8 3#8) := rfl
theorem test_decode_shr : decode 0b10101101#8 0b00001001#8 0b00000001#8 = .ok (.shr 9#8 1#8) := rfl

/-- V-DIS-4: 0xA1 has the ALU bit and is unknown all the same; 0x08 is not R0 (R62). -/
theorem test_decode_unknown : decode 0xA1#8 0#8 1#8 = .error (.unknownOpcode 0xA1#8) ∧ regIndex 0x08#8 = none :=
  ⟨rfl, rfl⟩

/-- R66: of the 256 byte values, 236 are illegal. -/
theorem test_illegal_count :
    ((List.range 256).filter fun n => mnemonicOf opcodeByte (BitVec.ofNat 8 n) = none).length = 236 := by
  decide +kernel

/-- R64: bit 5 marks exactly the ten ALU instructions and bit 4 exactly the five that set PC. -/
theorem test_opcode_layout :
    (Mnemonic.all.filter fun m => (opcodeByte m).getLsbD 5) = [.not, .add, .mul, .mod, .cmp, .and, .or, .xor, .shl, .shr] ∧
    (Mnemonic.all.filter fun m => (opcodeByte m).getLsbD 4) = [.ret, .call, .jmp, .jeq, .jne] := by decide

/-- P1's image read as a program: `[LDI,0,8, LDI,1,9, MUL,0,1, PRN,0, HLT]`. -/
theorem test_program_bytes : encodeProgramWith opcodeByte
    [.ldi 0#8 8#8, .ldi 1#8 9#8, .mul 0#8 1#8, .prn 0#8, .hlt] =
    [0x82#8, 0x00#8, 0x08#8, 0x82#8, 0x01#8, 0x09#8, 0xA2#8, 0x00#8, 0x01#8, 0x47#8, 0x00#8, 0x01#8] := by decide

/-- R68's forms. -/
theorem test_asm : Instr.asm (.ldi 0#8 8#8) = "LDI R0, 8" ∧ Instr.asm (.not 2#8) = "NOT R2" ∧ Instr.asm .hlt = "HLT" := by
  decide

/-! ### the host's word -/

theorem test_table_word_with_operands : decodeTableWord 24 0x080000 = none ∧
    decodeTableWord 24 0x080082 = some (.ldi 0#8 8#8) ∧ decodeTableWord 8 0xFFFF45 = some (.push 0#8) := by decide
theorem test_fetch_word_runs : look (step (State.reset.withFetchWord 24 0x080082)) (fun t => (t.reg 0, t.pc)) =
    some (8#8, 3#8) := by decide

/-! ### one step of every instruction -/

/-- V-ADD-1. -/
theorem test_add_wraps : look (step (withR01 [0xA0#8, 0#8, 1#8] 0xFF 1)) (fun t => (t.reg 0, t.reg 1, t.pc, t.fl)) =
    some (0x00#8, 0x01#8, 0x03#8, 0x00#8) := by decide
/-- V-ADD-4: a write of R7 is a write of SP. -/
theorem test_add_sp : look (step (withR01 [0xA0#8, 7#8, 0#8] 0x10 0)) State.sp = some 0x04#8 := by decide
/-- V-MUL-3. -/
theorem test_mul_low_byte : look (step (withR01 [0xA2#8, 0#8, 1#8] 0xFF 0xFF)) (·.reg 0) = some 0x01#8 := by decide
/-- V-MOD-1. -/
theorem test_mod : look (step (withR01 [0xA4#8, 0#8, 1#8] 0x0A 0x03)) (fun t => (t.reg 0, t.reg 1)) =
    some (0x01#8, 0x03#8) := by decide
/-- V-MOD-4: divisor 0 faults with nothing changed. -/
theorem test_mod_zero : look (step (withR01 [0xA4#8, 0#8, 1#8] 0x2A 0)) (fun t => (t.status, t.reg 0, t.pc)) =
    some (.faulted .divideByZero ⟨0x00#8, 0xA4#8⟩, 0x2A#8, 0x00#8) := by decide
/-- V-AND-1. -/
theorem test_and : look (step (withR01 [0xA8#8, 0#8, 1#8] 0xF0 0x3C)) (·.reg 0) = some 0x30#8 := by decide
/-- R105 by hand: 0x50 | 0x3C = 0x7C. -/
theorem test_or : look (step (withR01 [0xAA#8, 0#8, 1#8] 0x50 0x3C)) (·.reg 0) = some 0x7C#8 := by decide
/-- V-XOR-1. -/
theorem test_xor : look (step (withR01 [0xAB#8, 0#8, 1#8] 0xFF 0x0F)) (·.reg 0) = some 0xF0#8 := by decide
/-- V-NOT-3: the pad byte 0xFF is not checked, and PC advances by 3. -/
theorem test_not : look (step (withR01 [0x69#8, 0#8, 0xFF#8] 0xFF 0)) (fun t => (t.reg 0, t.pc)) =
    some (0x00#8, 0x03#8) := by decide
/-- V-SHL-1. -/
theorem test_shl : look (step (withR01 [0xAC#8, 0#8, 1#8] 0x81 1)) (·.reg 0) = some 0x02#8 := by decide
/-- V-SHL-4: the count is not taken mod 8. -/
theorem test_shl_large : look (step (withR01 [0xAC#8, 0#8, 1#8] 0xFF 0xFF)) (·.reg 0) = some 0x00#8 := by decide
/-- V-SHR-4: no sign fill. -/
theorem test_shr_logical : look (step (withR01 [0xAD#8, 0#8, 1#8] 0x80 1)) (·.reg 0) = some 0x40#8 := by decide
/-- V-SHR-3. -/
theorem test_shr_eight : look (step (withR01 [0xAD#8, 0#8, 1#8] 0x80 8)) (·.reg 0) = some 0x00#8 := by decide
/-- V-CMP-4: unsigned, so 0x00 is less than 0xFF. -/
theorem test_cmp_unsigned : look (step (withR01 [0xA7#8, 0#8, 1#8] 0x00 0xFF)) (fun t => (t.fl, t.regs == (withR01 [] 0 0xFF).regs)) =
    some (0x04#8, true) := by decide
/-- V-CMP-6: the old FL is replaced. -/
theorem test_cmp_equal : look (step (((boot [0xA7#8, 4#8, 4#8]).setReg 4 0x33).setFl 4#8)) (·.fl) = some 0x01#8 := by decide
/-- V-LDI-4: at 0xFE the fetch wraps and PC becomes 0x01. -/
theorem test_ldi_wraps : look (step { boot [0x2A#8] with pc := 0xFE#8, mem := [(0, 0x2A#8), (0xFE, 0x82#8)] })
    (fun t => (t.reg 0, t.pc)) = some (0x2A#8, 0x01#8) := by decide
/-- V-LDI-3. -/
theorem test_ldi_invalid : look (step (boot [0x82#8, 8#8, 5#8])) (fun t => (t.status, t.regs == State.reset.regs, t.pc)) =
    some (.faulted .invalidRegister ⟨0x00#8, 0x82#8⟩, true, 0x00#8) := by decide
/-- V-PRN-3. -/
theorem test_prn : look (step (withR01 [0x47#8, 0#8, 0xFF#8] 1 0)) (fun t => (t.out, t.pc)) = some ([1#8], 2#8) := by decide
/-- V-PUSH-2: SP wraps below 0x00. -/
theorem test_push_wraps : look (step ((withR01 [0x45#8, 0#8] 0x77 0).setSp 0)) (fun t => (t.sp, t.load 0xFF#8, t.pc)) =
    some (0xFF#8, 0x77#8, 0x02#8) := by decide
/-- V-PUSH-3. -/
theorem test_push_sp : look (step (boot [0x45#8, 7#8])) (fun t => (t.sp, t.load 0xF3#8)) = some (0xF3#8, 0xF3#8) := by decide
/-- V-POP-1. -/
theorem test_pop : look (step (((boot [0x46#8, 1#8]).setSp 0xF3).store 0xF3#8 0x2A)) (fun t => (t.reg 1, t.sp, t.pc)) =
    some (0x2A#8, 0xF4#8, 0x02#8) := by decide
/-- V-POP-3: the increment acts on the loaded byte. -/
theorem test_pop_sp : look (step (((boot [0x46#8, 7#8]).setSp 0xF3).store 0xF3#8 0x20)) State.sp = some 0x21#8 := by decide
/-- V-CALL-2: the return address wraps. -/
theorem test_call_wraps : look (step ((bootAt 0xFE#8 [0x50#8, 1#8]).setReg 1 0x40)) (fun t => (t.load 0xF3#8, t.pc, t.sp)) =
    some (0x00#8, 0x40#8, 0xF3#8) := by decide
/-- V-CALL-3. -/
theorem test_call_sp : look (step (bootAt 0x10#8 [0x50#8, 7#8])) (fun t => (t.load 0xF3#8, t.pc)) =
    some (0x12#8, 0xF3#8) := by decide
/-- V-RET-2. -/
theorem test_ret : look (step (((boot [0x11#8]).setSp 0xFF).store 0xFF#8 0x33)) (fun t => (t.pc, t.sp)) =
    some (0x33#8, 0x00#8) := by decide
/-- V-JMP-1. -/
theorem test_jmp : look (step ((boot [0x54#8, 2#8]).setReg 2 0x30)) (·.pc) = some 0x30#8 := by decide
/-- V-JEQ-1. -/
theorem test_jeq_taken : look (step (((bootAt 0x0C#8 [0x55#8, 2#8]).setReg 2 0x10).setFl 1#8)) (·.pc) = some 0x10#8 := by decide
/-- V-JEQ-3. -/
theorem test_jeq_not_taken : look (step (((bootAt 0x0C#8 [0x55#8, 2#8]).setReg 2 0x10).setFl 2#8)) (·.pc) = some 0x0E#8 := by
  decide
/-- V-JNE-1. -/
theorem test_jne_taken : look (step (((bootAt 0x12#8 [0x56#8, 3#8]).setReg 3 0x0C).setFl 4#8)) (·.pc) = some 0x0C#8 := by decide
/-- V-JNE-4. -/
theorem test_jne_not_taken : look (step (((bootAt 0x12#8 [0x56#8, 3#8]).setReg 3 0x0C).setFl 1#8)) (·.pc) = some 0x14#8 := by
  decide
/-- V-HLT-2. -/
theorem test_hlt : look (step (bootAt 0x0B#8 [0x01#8, 0xFF#8, 0xFF#8])) (fun t => (t.status, t.pc)) =
    some (.halted, 0x0B#8) := by decide

/-! ### the dispatcher, faults and ports -/

/-- V-DIS-3. -/
theorem test_unknown_opcode : look (step { State.reset with pc := 3#8 }) (fun t => (t.status, t.pc)) =
    some (.faulted .unknownOpcode ⟨0x03#8, 0x00#8⟩, 0x03#8) := by decide
/-- V-MOD-7: InvalidRegister is reported before DivideByZero. -/
theorem test_fault_priority : look (step (boot [0xA4#8, 9#8, 0#8])) statusPort = some (.faulted 4 0x00#8 0xA4#8) := by decide
/-- V-JEQ-5: a branch that is not taken is checked. -/
theorem test_jeq_invalid : look (step (boot [0x55#8, 9#8])) statusPort = some (.faulted 4 0x00#8 0x55#8) := by decide
/-- V-DIS-5. -/
theorem test_trace : tracePort (boot [0x82#8, 0#8, 8#8]) =
    some ⟨0x00#8, ⟨0x82#8, 0x00#8, 0x08#8⟩, #v[0#8, 0#8, 0#8, 0#8, 0#8, 0#8, 0#8, 0xF4#8]⟩ := by decide
/-- R34 and R190: the image, and zeros past it. -/
theorem test_reset_image : look (resetWith [0x82#8, 0#8, 8#8]) (fun t => (t.load 0#8, t.load 2#8, t.load 3#8)) =
    some (0x82#8, 0x08#8, 0x00#8) := by decide

/-! ### a witness for the hypotheses of each obligation -/

/-- A run that has ended: HLT at address 0. -/
def haltedState : State := { boot [0x01#8] with status := .halted }

/-- A run that has faulted: the empty image's first step. -/
def faultedState : State := { State.reset with status := .faulted .unknownOpcode ⟨0x00#8, 0x00#8⟩ }

theorem witness_StepRunsDecodedInstruction : let s := boot [0xA0#8, 7#8, 0#8]
    s.status = .running ∧ decode (s.load s.pc) (s.load (s.pc + 1#8)) (s.load (s.pc + 2#8)) = .ok (.add 7#8 0#8) := ⟨rfl, rfl⟩
theorem witness_UnknownOpcodeFaultsTheStep :
    State.reset.status = .running ∧ ∀ m, opcodeByte m ≠ State.reset.load State.reset.pc :=
  ⟨rfl, fun m => by cases m <;> decide⟩
theorem witness_HaltedAndFaultedAreFinal : haltedState.status ≠ .running ∧ faultedState.status ≠ .running := by decide
theorem witness_OnlyResetLeavesFaulted : faultedState.status = .faulted .unknownOpcode ⟨0x00#8, 0x00#8⟩ ∧
    (∃ t, request (.reset []) faultedState = .next t ∧ t.status ≠ faultedState.status) ∧
    (List.replicate 256 (0#8 : Byte)).length ≤ 256 :=
  ⟨rfl, ⟨_, rfl, by decide⟩, by rw [List.length_replicate]⟩
theorem witness_FaultingStepChangesOnlyStatus : State.reset.status = .running ∧
    ∃ t, step State.reset = .next t ∧ t.status = .faulted .unknownOpcode ⟨0x00#8, 0x00#8⟩ := ⟨rfl, _, rfl, rfl⟩
theorem witness_FaultRecordsPcAndOpcode : (boot [0xA4#8, 0#8, 0#8]).status = .running ∧
    ∃ t, step (boot [0xA4#8, 0#8, 0#8]) = .next t ∧ t.status = .faulted .divideByZero ⟨0x00#8, 0xA4#8⟩ := ⟨rfl, _, rfl, rfl⟩
theorem witness_StepFaultsInPriorityOrder_halted : (boot [0x01#8]).status = .running ∧
    ∃ t, step (boot [0x01#8]) = .next t ∧ t.status = .halted := ⟨rfl, _, rfl, rfl⟩
theorem witness_StepFaultsInPriorityOrder_unknown : State.reset.status = .running ∧
    ∃ t d, step State.reset = .next t ∧ t.status = .faulted .unknownOpcode d := ⟨rfl, _, _, rfl, rfl⟩
theorem witness_StepFaultsInPriorityOrder_invalid : (boot [0xA4#8, 8#8, 0#8]).status = .running ∧
    ∃ t d, step (boot [0xA4#8, 8#8, 0#8]) = .next t ∧ t.status = .faulted .invalidRegister d := ⟨rfl, _, _, rfl, rfl⟩
theorem witness_StepFaultsInPriorityOrder_divisor : (boot [0xA4#8, 7#8, 0#8]).status = .running ∧
    ∃ t d, step (boot [0xA4#8, 7#8, 0#8]) = .next t ∧ t.status = .faulted .divideByZero d := ⟨rfl, _, _, rfl, rfl⟩
/-- In a state no run reaches, whose status already says so. -/
theorem witness_UnsupportedAluOperationNeverRaised :
    let s := { State.reset with status := .faulted .unsupportedALUOperation ⟨0x00#8, 0x00#8⟩ }
    ∃ t, step s = .next t ∧ t.status = .faulted .unsupportedALUOperation ⟨0x00#8, 0x00#8⟩ := ⟨_, rfl, rfl⟩
theorem witness_DivideByZeroRaisedByModAlone : (0#8 : Byte).toNat < 8 ∧ (6#8 : Byte).toNat < 8 ∧ State.reset.regs[6] = 0#8 ∧
    State.reset.status = .running ∧
    ∃ t, exec (.mod 0#8 6#8) State.reset = .next t ∧ t.status = .faulted .divideByZero ⟨0x00#8, 0xA4#8⟩ :=
  ⟨by decide, by decide, rfl, rfl, _, rfl, rfl⟩
theorem witness_InvalidRegisterFieldFaults_opA : ∃ f ∈ (Instr.jne 8#8).regFields, 7 < f.toNat := ⟨8#8, by decide, by decide⟩
theorem witness_InvalidRegisterFieldFaults_opB : ∃ f ∈ (Instr.shl 7#8 0xFF#8).regFields, 7 < f.toNat :=
  ⟨0xFF#8, by decide, by decide⟩
theorem witness_InvalidRegisterFieldFaults_valid : State.reset.status = .running ∧
    (∀ f ∈ (Instr.add 7#8 0#8).regFields, f.toNat ≤ 7) ∧ ∃ t, exec (.add 7#8 0#8) State.reset = .next t :=
  ⟨rfl, by decide, _, rfl⟩
theorem witness_RunStartsAtAddressZero : (List.replicate 256 (0x01#8 : Byte)).length ≤ 256 := by rw [List.length_replicate]
theorem witness_ResetLoadsImage : (List.replicate 256 (0x01#8 : Byte)).length ≤ 256 := by rw [List.length_replicate]
theorem witness_OversizeImageRefusedEmptyImageFaults : 256 < (List.replicate 257 (0x01#8 : Byte)).length := by rw [List.length_replicate]; omega
theorem witness_RegisterWriteIsModulo256 : (3 : RegIdx) ≠ 4 ∧ (State.reset.setSp 0).sp = 0x00#8 ∧
    (State.reset.setSp 0xFF).sp = 0xFF#8 := by decide
theorem witness_MemoryWriteStoresOneByte : (0xFF#8 : Byte) ≠ 0x00#8 := by decide
theorem witness_ReadReturnsMostRecentWrite :
    ([(1#8, 5#8), (1#8, 6#8)] : List (Byte × Byte)).reverse.find? (fun w => w.1 == 1#8) = some (1#8, 6#8) := by decide
theorem witness_FlagsRegisterBits_cmp : (7#8 : Byte).toNat < 8 ∧ (0#8 : Byte).toNat < 8 ∧
    ∃ t, exec (.cmp 7#8 0#8) State.reset = .next t ∧ t.fl ≠ State.reset.fl := ⟨by decide, by decide, _, rfl, by decide⟩
theorem witness_FlagsRegisterBits_unread : (0x06#8 : Byte).getLsbD 0 = State.reset.fl.getLsbD 0 ∧
    ∀ r, Instr.ret ≠ .jeq r ∧ Instr.ret ≠ .jne r := ⟨by decide, by simp⟩
theorem witness_FlagsStayOneOfFourValues : let s := boot [0xA7#8, 7#8, 0#8]
    flLegal s.fl ∧ ∃ t, step s = .next t ∧ t.fl ≠ s.fl := ⟨.inl rfl, _, rfl, by decide⟩
theorem witness_OutputStreamHoldsPrnBytes : let s := boot [0x47#8, 7#8]
    (7#8 : Byte).toNat < 8 ∧ s.status = .running ∧
    decode (s.load s.pc) (s.load (s.pc + 1#8)) (s.load (s.pc + 2#8)) = .ok (.prn 7#8) ∧
    ∃ t, step s = .next t ∧ t.out ≠ s.out := ⟨by decide, rfl, rfl, _, rfl, by decide⟩

/-- The operand hypotheses of the ten ALU results, the data and stack results and the control results: fields 0 and 7
are the ends of the range. -/
theorem witness_register_fields : (0x00#8 : Byte).toNat < 8 ∧ (0x07#8 : Byte).toNat < 8 := by decide
theorem witness_AddWritesSum : (0x00#8 : Byte).toNat < 8 ∧ (0x07#8 : Byte).toNat < 8 := witness_register_fields
theorem witness_MulWritesLowProduct : (0x00#8 : Byte).toNat < 8 ∧ (0x07#8 : Byte).toNat < 8 := witness_register_fields
theorem witness_ModWritesRemainderOrFaults : (0x00#8 : Byte).toNat < 8 ∧ (0x07#8 : Byte).toNat < 8 ∧
    State.reset.regs[7] ≠ 0#8 ∧ State.reset.regs[0] = 0#8 := by decide
theorem witness_AndOrXorWriteBitwiseResult : (0x00#8 : Byte).toNat < 8 ∧ (0x07#8 : Byte).toNat < 8 := witness_register_fields
theorem witness_NotWritesComplement : (0x07#8 : Byte).toNat < 8 := by decide
theorem witness_ShlShiftsLeftByWholeCount : (0x00#8 : Byte).toNat < 8 ∧ (0x01#8 : Byte).toNat < 8 ∧
    8 ≤ ((withR01 [] 1 8).regs[1]).toNat := by decide
theorem witness_ShrShiftsRightByWholeCount : (0x00#8 : Byte).toNat < 8 ∧ (0x01#8 : Byte).toNat < 8 ∧
    8 ≤ ((withR01 [] 1 8).regs[1]).toNat := by decide
theorem witness_CmpSetsOneFlag : (0x00#8 : Byte).toNat < 8 ∧ (0x07#8 : Byte).toNat < 8 := witness_register_fields
theorem witness_LdiWritesImmediate : (0x07#8 : Byte).toNat < 8 := by decide
theorem witness_PrnEmitsRegister : (0x07#8 : Byte).toNat < 8 := by decide
theorem witness_PushStoresBelowStack : (0x07#8 : Byte).toNat < 8 := by decide
theorem witness_PopLoadsThenIncrements : (0x07#8 : Byte).toNat < 8 := by decide
theorem witness_CallPushesReturnAddress : (0x07#8 : Byte).toNat < 8 := by decide
theorem witness_JmpSetsProgramCounter : (0x07#8 : Byte).toNat < 8 := by decide
theorem witness_JeqJumpsWhenEqual : (0x07#8 : Byte).toNat < 8 ∧ (State.reset.setFl 1#8).fl.getLsbD 0 = true := by decide
theorem witness_JneJumpsWhenNotEqual : (0x07#8 : Byte).toNat < 8 ∧ State.reset.fl.getLsbD 0 = false := by decide

theorem witness_PcAdvancesByEncodedLength : ∃ t, exec (.not 7#8) State.reset = .next t ∧ t.status = .running ∧
    (∀ r, Instr.not 7#8 ≠ .call r ∧ Instr.not 7#8 ≠ .jmp r) ∧ Instr.not 7#8 ≠ .ret ∧
    (∀ r, Instr.not 7#8 = .jeq r → State.reset.fl.getLsbD 0 = false) ∧
    (∀ r, Instr.not 7#8 = .jne r → State.reset.fl.getLsbD 0 = true) := ⟨_, rfl, rfl, by simp, by simp, by simp, by simp⟩
theorem witness_PcAdvances_branches : ∃ t u, exec (.jeq 0#8) State.reset = .next t ∧ t.pc = 2#8 ∧
    exec (.jne 0#8) (State.reset.setFl 1#8) = .next u ∧ u.pc = 2#8 := ⟨_, _, rfl, rfl, rfl, rfl⟩
theorem witness_MemoryTouchedOnlyThroughSp_write : ∃ t, exec (.push 7#8) State.reset = .next t ∧
    t.load 0xF3#8 ≠ State.reset.load 0xF3#8 := ⟨_, rfl, by decide⟩
theorem witness_MemoryTouchedOnlyThroughSp_read : (0xF3#8 : Byte) ≠ State.reset.regs[7] ∧
    Instr.hlt ≠ .ret ∧ ∀ r, Instr.hlt ≠ .pop r := ⟨by decide, by simp, by simp⟩
theorem witness_OnlyNamedRegistersChange : ∃ t, exec (.ldi 0#8 0xFF#8) State.reset = .next t ∧
    t.reg 0 ≠ State.reset.reg 0 := ⟨_, rfl, by decide⟩
theorem witness_OnlyNamedRegistersAreRead : (5 : RegIdx).val ≠ (0#8 : Byte).toNat ∧ (5 : RegIdx).val ≠ (7#8 : Byte).toNat ∧
    (5 : RegIdx).val ≠ 7 := by decide
theorem witness_PushThenPopRestoresRegisters : (0x07#8 : Byte).toNat < 8 := by decide
theorem witness_CallThenRetReturnsPastTheCall : (0x07#8 : Byte).toNat < 8 ∧
    ∃ t, exec (.call 7#8) State.reset = .next t ∧ t.sp = t.sp ∧ t.load t.sp = t.load t.sp := ⟨by decide, _, rfl, rfl, rfl⟩
theorem witness_BranchFollowsCompare : (0x00#8 : Byte).toNat < 8 ∧ (0x07#8 : Byte).toNat < 8 := witness_register_fields
theorem witness_CallKeepsItsFetchedOperand : let s := (boot [0x50#8, 7#8]).setSp 2
    (7#8 : Byte).toNat < 8 ∧ s.status = .running ∧ s.load s.pc = 0x50#8 ∧ s.load (s.pc + 1#8) = 7#8 ∧
    s.regs[7] - 1#8 = s.pc + 1#8 := by decide
theorem witness_PushedByteIsFetchedNext : let s := (boot [0x45#8, 6#8]).setSp 3
    (6#8 : Byte).toNat < 7 ∧ s.status = .running ∧ s.load s.pc = 0x45#8 ∧ s.load (s.pc + 1#8) = 6#8 ∧
    s.regs[7] - 1#8 = s.pc + 2#8 := by decide
/-- V-JMP-2. -/
theorem witness_JumpToItselfNeverEnds : let s := boot [0x54#8, 0#8]
    (0#8 : Byte).toNat < 8 ∧ s.status = .running ∧ s.load s.pc = 0x54#8 ∧ s.load (s.pc + 1#8) = 0#8 ∧ s.regs[0] = s.pc := by
  decide
theorem witness_TraceShowsStateBeforeExecution : State.reset.status = .running ∧ haltedState.status ≠ .running := by decide
theorem witness_FaultCodesAndExitCodes : faultedState.status = .faulted .unknownOpcode ⟨0x00#8, 0x00#8⟩ := rfl
theorem witness_FetchWordIsRunNext : decodeTableWord 16 0x0745 = some (.push 7#8) := by decide
theorem witness_DecodeMatchesExactOpcodeByte : (0xAD#8 : Byte) ∈ [0x01#8, 0x11#8, 0x45#8, 0x46#8, 0x47#8, 0x50#8, 0x54#8,
      0x55#8, 0x56#8, 0x69#8, 0x82#8, 0xA0#8, 0xA2#8, 0xA4#8, 0xA7#8, 0xA8#8, 0xAA#8, 0xAB#8, 0xAC#8, 0xAD#8] ∧
    (0xA1#8 : Byte) ∉ [0x01#8, 0x11#8, 0x45#8, 0x46#8, 0x47#8, 0x50#8, 0x54#8, 0x55#8, 0x56#8, 0x69#8, 0x82#8, 0xA0#8,
      0xA2#8, 0xA4#8, 0xA7#8, 0xA8#8, 0xAA#8, 0xAB#8, 0xAC#8, 0xAD#8] := by decide
theorem witness_DecodeOfEncodeIsIdentity : Function.Injective opcodeByte ∧
    encodeWith opcodeByte (.push 7#8) ++ [0xFF#8] = 0x45#8 :: 0x07#8 :: 0xFF#8 :: [] := ⟨opcodeByte_injective, rfl⟩
theorem witness_EncodeOfDecodeGivesUsedBytes : decode 0x69#8 0x02#8 0xFF#8 = .ok (.not 2#8) ∧
    decode 0x45#8 0x02#8 0xFF#8 = .ok (.push 2#8) := ⟨rfl, rfl⟩
theorem witness_ProgramBytesReadBack : Function.Injective opcodeByte := opcodeByte_injective
theorem witness_StepKeepsMachineInvariant : State.reset.Inv ∧ ∃ t, step State.reset = .next t :=
  ⟨⟨memWf_nil, .inl rfl, trivial⟩, _, rfl⟩
theorem witness_ResetEstablishesInvariant : ∃ t, resetWith [0x01#8] = .next t := ⟨_, rfl⟩

end Sys2Proof.Tests
end

/-! # What an instruction does, said once

`exec` checks the register fields, then MOD's divisor, and only then changes the state. `effect` is that change by
itself; `exec_of_not_wf`, `exec_of_divisorIsZero` and `exec_of_wf` tie it to `exec`. -/

namespace Sys2Proof.Machine

/-! ### Fields and registers -/

/-- The register a valid field selects. (A field above 7 is wrapped here; `exec` never gets that far with one.) -/
def fieldReg (f : Byte) : RegIdx := Fin.ofNat 8 f.toNat

theorem validField_iff {f : Byte} : validField f = true ↔ f.toNat < 8 := by
  simp [validField, Nat.lt_succ_iff]

theorem fieldReg_val {f : Byte} (h : f.toNat < 8) : (fieldReg f).val = f.toNat :=
  Nat.mod_eq_of_lt h

theorem fieldReg_of_lt {f : Byte} (h : f.toNat < 8) : fieldReg f = ⟨f.toNat, h⟩ :=
  Fin.ext (fieldReg_val h)

theorem wf_iff {i : Instr} : i.wf = true ↔ ∀ f ∈ i.regFields, f.toNat < 8 := by
  simp [Instr.wf, validField_iff]

theorem wf_one_field {i : Instr} {f : Byte} (hi : i.regFields = [f]) : i.wf = true ↔ f.toNat < 8 := by
  simp [wf_iff, hi]

theorem wf_two_fields {i : Instr} {fa fb : Byte} (hi : i.regFields = [fa, fb]) :
    i.wf = true ↔ fa.toNat < 8 ∧ fb.toNat < 8 := by
  simp [wf_iff, hi]

theorem withReg_eq (m : Mnemonic) (f : Byte) (s : State) (body : RegIdx → Result) :
    withReg m f s body =
      if validField f then body (fieldReg f) else raiseFault .invalidRegister (opcodeByte m) s := by
  split
  · next h => rw [withReg_of_lt (validField_iff.1 h), fieldReg_of_lt (validField_iff.1 h)]
  · next h => exact withReg_of_ge (by rw [validField_iff] at h; omega)

theorem withRegs_eq (m : Mnemonic) (fa fb : Byte) (s : State) (body : RegIdx → RegIdx → Result) :
    withRegs m fa fb s body =
      if validField fa && validField fb then body (fieldReg fa) (fieldReg fb)
      else raiseFault .invalidRegister (opcodeByte m) s := by
  rw [withRegs, withReg_eq, withReg_eq]
  cases validField fa <;> rfl

/-! ### The effect of an instruction -/

/-- What a two-register ALU instruction does once its fields are checked (41_alu.md R100). -/
def aluEffect (g : Byte → Byte → Int) (ra rb : Byte) (s : State) : State :=
  (s.setReg (fieldReg ra) (g (s.reg (fieldReg ra)) (s.reg (fieldReg rb)))).advance 3

/-- What an instruction does once its fields and its divisor are checked. -/
def effect (i : Instr) (s : State) : State :=
  match i with
  | .hlt => s.halt
  | .ret => (s.setPc (s.load s.sp).toNat).incSp
  | .push r => (s.pushWith fun t => (t.reg (fieldReg r)).toNat).advance 2
  | .pop r => (s.setReg (fieldReg r) (s.load s.sp).toNat).incSp.advance 2
  | .prn r => (s.emit (s.reg (fieldReg r))).advance 2
  | .call r => (s.pushWith fun t => (narrow (t.pc.toNat + 2)).toNat).jumpTo (fieldReg r)
  | .jmp r => s.jumpTo (fieldReg r)
  | .jeq r => if flagE s.fl then s.jumpTo (fieldReg r) else s.advance 2
  | .jne r => if flagE s.fl then s.advance 2 else s.jumpTo (fieldReg r)
  | .not ra => (s.setReg (fieldReg ra) (aluNot (s.reg (fieldReg ra)))).advance 3
  | .ldi r imm => (s.setReg (fieldReg r) (immediate imm)).advance 3
  | .add ra rb => aluEffect aluAdd ra rb s
  | .mul ra rb => aluEffect aluMul ra rb s
  | .mod ra rb => aluEffect aluMod ra rb s
  | .cmp ra rb => (s.setFl (compareFlags (s.reg (fieldReg ra)) (s.reg (fieldReg rb)))).advance 3
  | .and ra rb => aluEffect aluAnd ra rb s
  | .or ra rb => aluEffect aluOr ra rb s
  | .xor ra rb => aluEffect aluXor ra rb s
  | .shl ra rb => aluEffect aluShl ra rb s
  | .shr ra rb => aluEffect aluShr ra rb s

/-- The instruction is a MOD whose divisor register holds 0 (60_exceptions.md R172). -/
def divisorIsZero (i : Instr) (s : State) : Prop :=
  match i with
  | .mod _ rb => s.reg (fieldReg rb) = 0x00#8
  | _ => False

theorem divisorIsZero_iff {i : Instr} {s : State} :
    divisorIsZero i s ↔ ∃ ra rb, i = .mod ra rb ∧ s.reg (fieldReg rb) = 0x00#8 := by
  cases i <;> simp [divisorIsZero]

/-- A field above 7 faults before anything else, whatever the instruction (40_dispatcher.md R88). -/
theorem exec_of_not_wf {i : Instr} (h : i.wf = false) (s : State) :
    exec i s = raiseFault .invalidRegister (opcodeByte i.mnemonic) s := by
  cases i with
  | hlt | ret => cases h
  | push | pop | prn | call | jmp | jeq | jne | not | ldi =>
    exact (withReg_eq ..).trans (if_neg (by simpa [Instr.wf, Instr.regFields] using h))
  | add | mul | mod | cmp | and | or | xor | shl | shr =>
    exact (withRegs_eq ..).trans (if_neg (by simpa [Instr.wf, Instr.regFields] using h))

/-- With valid fields, a divisor of 0 faults (60_exceptions.md R172). -/
theorem exec_of_divisorIsZero {i : Instr} {s : State} (h : i.wf = true) (hd : divisorIsZero i s) :
    exec i s = raiseFault .divideByZero (opcodeByte i.mnemonic) s := by
  obtain ⟨ra, rb, rfl, hz⟩ := divisorIsZero_iff.1 hd
  exact ((withRegs_eq ..).trans (if_pos (by simpa [Instr.wf, Instr.regFields] using h))).trans (if_pos hz)

/-- With valid fields and no divisor of 0, the instruction has its effect. -/
theorem exec_of_wf {i : Instr} {s : State} (h : i.wf = true) (hd : ¬ divisorIsZero i s) :
    exec i s = .next (effect i s) := by
  cases i with
  | hlt | ret => rfl
  | push | pop | prn | call | jmp | jeq | jne | not | ldi =>
    exact (withReg_eq ..).trans (if_pos (by simpa [Instr.wf, Instr.regFields] using h))
  | add | mul | cmp | and | or | xor | shl | shr =>
    exact (withRegs_eq ..).trans (if_pos (by simpa [Instr.wf, Instr.regFields] using h))
  | mod =>
    exact ((withRegs_eq ..).trans (if_pos (by simpa [Instr.wf, Instr.regFields] using h))).trans (if_neg hd)

/-- Everything an instruction can do, in the order of 60_exceptions.md R176. -/
theorem exec_next_cases {i : Instr} {s t : State} (h : exec i s = .next t) :
    (i.wf = false ∧ t = { s with status := .faulted .invalidRegister ⟨s.pc, opcodeByte i.mnemonic⟩ }) ∨
      (i.wf = true ∧ divisorIsZero i s ∧
        t = { s with status := .faulted .divideByZero ⟨s.pc, opcodeByte i.mnemonic⟩ }) ∨
      (i.wf = true ∧ ¬ divisorIsZero i s ∧ t = effect i s) := by
  cases hw : i.wf with
  | false => exact .inl ⟨rfl, raiseFault_eq_next (exec_of_not_wf hw s ▸ h)⟩
  | true =>
    by_cases hd : divisorIsZero i s
    · exact .inr (.inl ⟨rfl, hd, raiseFault_eq_next (exec_of_divisorIsZero hw hd ▸ h)⟩)
    · rw [exec_of_wf hw hd] at h
      injection h with h
      exact .inr (.inr ⟨rfl, hd, h.symm⟩)

/-- To relate an instruction's answers in two states, relate its effects and the two faulted states. -/
theorem exec_related {R : State → State → Prop} {i : Instr} {s u : State}
    (hd : i.wf = true → (divisorIsZero i s ↔ divisorIsZero i u))
    (hfault : ∀ f op, R (s.setStatus (.faulted f ⟨s.pc, op⟩)) (u.setStatus (.faulted f ⟨u.pc, op⟩)))
    (heff : i.wf = true → R (effect i s) (effect i u)) :
    ∃ t t', exec i s = .next t ∧ exec i u = .next t' ∧ R t t' := by
  cases hw : i.wf with
  | false => exact ⟨_, _, exec_of_not_wf hw s, exec_of_not_wf hw u, hfault ..⟩
  | true =>
    by_cases hz : divisorIsZero i s
    · exact ⟨_, _, exec_of_divisorIsZero hw hz, exec_of_divisorIsZero hw ((hd hw).1 hz), hfault ..⟩
    · exact ⟨_, _, exec_of_wf hw hz, exec_of_wf hw (mt (hd hw).2 hz), heff hw⟩

/-! ### What each field of the state owes to the effect -/

theorem effect_status {i : Instr} (s : State) (h : i ≠ .hlt) : (effect i s).status = s.status := by
  cases i with
  | hlt => exact absurd rfl h
  | jeq | jne => dsimp only [effect]; split <;> rfl
  | _ => rfl

/-- Only CMP writes FL (10_state.md R27; log 5). -/
theorem effect_fl {i : Instr} (s : State) (h : ∀ ra rb, i ≠ .cmp ra rb) : (effect i s).fl = s.fl := by
  cases i with
  | cmp ra rb => exact absurd rfl (h ra rb)
  | jeq | jne => dsimp only [effect]; split <;> rfl
  | _ => rfl

/-- Only PRN emits (10_state.md R31). -/
theorem effect_out {i : Instr} (s : State) (h : ∀ r, i ≠ .prn r) : (effect i s).out = s.out := by
  cases i with
  | prn r => exact absurd rfl (h r)
  | jeq | jne => dsimp only [effect]; split <;> rfl
  | _ => rfl

/-- Only PUSH and CALL write memory (20_memory.md R43). -/
theorem effect_mem {i : Instr} (s : State) (h : ∀ r, i ≠ .push r ∧ i ≠ .call r) : (effect i s).mem = s.mem := by
  cases i with
  | push r => exact absurd rfl (h r).1
  | call r => exact absurd rfl (h r).2
  | jeq | jne => dsimp only [effect]; split <;> rfl
  | _ => rfl

theorem effect_memWf {i : Instr} {s : State} (h : s.mem.wf) : (effect i s).mem.wf := by
  cases i with
  | push | call => simpa only [effect, advance_mem, jumpTo_mem] using pushWith_wf s _ h
  | _ => rw [effect_mem s (by simp)]; exact h

/-- The registers an instruction writes (10_state.md R21, column "writes"). -/
def writtenRegs : Instr → List RegIdx
  | .add ra _ | .mul ra _ | .mod ra _ | .and ra _ | .or ra _ | .xor ra _ | .shl ra _ | .shr ra _ | .not ra
  | .ldi ra _ => [fieldReg ra]
  | .push _ | .call _ | .ret => [spIdx]
  | .pop r => [fieldReg r, spIdx]
  | .cmp _ _ | .prn _ | .jmp _ | .jeq _ | .jne _ | .hlt => []

theorem effect_reg {i : Instr} (s : State) {k : RegIdx} (h : k ∉ writtenRegs i) : (effect i s).reg k = s.reg k := by
  cases i with
  | jeq | jne => dsimp only [effect]; split <;> rfl
  | hlt | prn | jmp | cmp => rfl
  | pop r =>
    obtain ⟨hr, hsp⟩ : k ≠ fieldReg r ∧ k ≠ spIdx := by simpa [writtenRegs] using h
    exact (reg_setReg_other _ _ _ _ hsp).trans (reg_setReg_other _ _ _ _ hr)
  | _ => exact reg_setReg_other _ _ _ _ (by simpa [writtenRegs] using h)

/-! ### The step -/

theorem decode_of_mnemonicOf {b x y : Byte} {m : Mnemonic} (h : mnemonicOf opcodeByte b = some m) :
    decode b x y = .ok (assemble m x y) := by
  rw [decode, decodeWith, h]

/-- A running core runs the decoded instruction (40_dispatcher.md R86). -/
theorem step_of_decode {s : State} {i : Instr} (hs : s.status = .running)
    (hi : decode (s.load s.pc) (s.load (s.pc + 1#8)) (s.load (s.pc + 2#8)) = .ok i) : step s = exec i s := by
  simp [step, hs, runCycle, Latch.decoded, fetch_eq, hi]

/-- A core that is Halted or Faulted answers its own state (40_dispatcher.md R81). -/
theorem step_of_not_running {s : State} (h : s.status ≠ .running) : step s = .next s := by
  unfold step
  split
  · next hs => exact absurd hs h
  · rfl
  · rfl

/-- A step runs a decoded instruction, or it changes no more than the status. -/
theorem step_decodes_or_keeps {s t : State} (h : step s = .next t) :
    (∃ i, s.status = .running ∧ decode (s.load s.pc) (s.load (s.pc + 1#8)) (s.load (s.pc + 2#8)) = .ok i ∧
        exec i s = .next t) ∨
      ∃ st, t = { s with status := st } := by
  rcases step_next_cases h with ⟨m, hs, hm, he⟩ | ⟨-, -, rfl⟩ | ⟨-, rfl⟩
  · exact .inl ⟨_, hs, decode_of_mnemonicOf hm, he⟩
  · exact .inr ⟨_, rfl⟩
  · exact .inr ⟨t.status, rfl⟩

end Sys2Proof.Machine

/-! # The state (10_state.md) -/

namespace Sys2Proof.Machine

/-! ### What one instruction does to FL -/

theorem exec_fl_cases {i : Instr} {s t : State} (h : exec i s = .next t) :
    t.fl = s.fl ∨ ∃ ra rb, i = .cmp ra rb ∧ i.wf = true ∧
      t.fl = compareFlags (s.reg (fieldReg ra)) (s.reg (fieldReg rb)) := by
  rcases exec_next_cases h with ⟨-, rfl⟩ | ⟨-, -, rfl⟩ | ⟨hw, -, rfl⟩
  · exact .inl rfl
  · exact .inl rfl
  · by_cases hc : ∃ ra rb, i = .cmp ra rb
    · obtain ⟨ra, rb, rfl⟩ := hc
      exact .inr ⟨ra, rb, rfl, hw, rfl⟩
    · exact .inl (effect_fl s fun ra rb e => hc ⟨ra, rb, e⟩)

theorem compareFlags_legal (a b : Byte) : flLegal (compareFlags a b) := by
  rcases compareFlags_cases a b with ⟨e, -⟩ | ⟨e, -⟩ | ⟨e, -⟩ <;> simp [flLegal, e]

theorem exec_flLegal {i : Instr} {s t : State} (hs : flLegal s.fl) (h : exec i s = .next t) : flLegal t.fl := by
  rcases exec_fl_cases h with e | ⟨ra, rb, -, -, e⟩
  · exact e ▸ hs
  · exact e ▸ compareFlags_legal _ _

/-! ### The machine's invariant -/

/-- A fault entry that records the byte at PC keeps the invariant (60_exceptions.md R177). -/
theorem faulted_inv {s : State} {f : Fault} {b : Byte} (h : s.Inv) (hb : b = s.load s.pc) (hf : faultFits f b) :
    State.Inv { s with status := .faulted f ⟨s.pc, b⟩ } :=
  ⟨h.memory, h.flags, rfl, hb, hf⟩

theorem faultFits_of_not_wf {i : Instr} (h : i.wf = false) :
    faultFits .invalidRegister (opcodeByte i.mnemonic) := by
  cases i with
  | hlt | ret => cases h
  | _ => exact ⟨_, rfl, nofun, nofun⟩

theorem exec_inv {i : Instr} {s t : State} (h : s.Inv) (hs : s.status = .running)
    (hop : opcodeByte i.mnemonic = s.load s.pc) (he : exec i s = .next t) : t.Inv := by
  have hfl := exec_flLegal h.flags he
  rcases exec_next_cases he with ⟨hw, rfl⟩ | ⟨-, hd, rfl⟩ | ⟨-, -, rfl⟩
  · exact faulted_inv h hop (faultFits_of_not_wf hw)
  · obtain ⟨ra, rb, rfl, -⟩ := divisorIsZero_iff.1 hd
    exact faulted_inv h hop rfl
  · refine ⟨effect_memWf h.memory, hfl, ?_⟩
    by_cases hi : i = .hlt
    · subst hi; exact hop.symm
    · simp only [statusConsistent, effect_status s hi, hs]

/-- Settles O58: a step runs the instruction whose opcode byte is at PC, records an unknown byte, or answers the same
state; each keeps the invariant. -/
theorem stepKeepsMachineInvariant : Obligations.StepKeepsMachineInvariant := by
  intro s t hs h
  rcases step_next_cases h with ⟨m, hrun, hm, he⟩ | ⟨-, hm, rfl⟩ | ⟨-, rfl⟩
  · exact exec_inv hs hrun (by rw [assemble_mnemonic, mnemonicOf_eq_some hm]) he
  · exact faulted_inv hs rfl hm
  · exact hs

/-! ### The run status -/

theorem run_succ_of_next {M : Host.Core} {k : Nat} {s t : M.State} (h : M.step s = .next t) :
    M.run (k + 1) s = M.run k t := by
  rw [Host.Core.run, h]

theorem run_of_not_running {s : State} (h : s.status ≠ .running) (k : Nat) : core.run k s = .next s := by
  induction k with
  | zero => rfl
  | succ k ih => exact (run_succ_of_next (M := core) (step_of_not_running h)).trans ih

theorem fault_code_injective : Function.Injective Fault.code := by
  intro f g; cases f <;> cases g <;> decide

/-- The status port hides nothing of the status. -/
theorem statusPort_eq_iff {s t : State} : statusPort s = statusPort t ↔ s.status = t.status := by
  unfold statusPort
  rcases s.status with _ | _ | ⟨f, p, o⟩ <;> rcases t.status with _ | _ | ⟨g, q, r⟩ <;>
    simp [fault_code_injective.eq_iff]

/-- Settles O3: a step of a stopped core answers its own state, so any number of them does; the port is injective in
the status because the fault codes are. -/
theorem haltedAndFaultedAreFinal : Obligations.HaltedAndFaultedAreFinal :=
  ⟨rfl, fun k _ h => run_of_not_running h k, fun _ _ => statusPort_eq_iff⟩

/-! ### FL: bits, writers and readers -/

/-- A byte below 8 has no bit from 3 up. -/
theorem getLsbD_of_lt_eight {f : Byte} (hf : f.toNat < 2 ^ 3) (k : Nat) (hk : 3 ≤ k) : f.getLsbD k = false :=
  Nat.testBit_lt_two_pow (hf.trans_le (Nat.pow_le_pow_right (by decide) hk))

/-- What the bits of FL say after a compare (41_alu.md R110). -/
theorem compareFlags_bits (a b : Byte) :
    (compareFlags a b).getLsbD 0 = decide (a = b) ∧ (compareFlags a b).getLsbD 1 = decide (a.toNat > b.toNat) ∧
      (compareFlags a b).getLsbD 2 = decide (a.toNat < b.toNat) ∧
      ∀ k, 3 ≤ k → (compareFlags a b).getLsbD k = false := by
  rcases compareFlags_cases a b with ⟨e, h⟩ | ⟨e, h⟩ | ⟨e, h⟩ <;> rw [e]
  · subst h; exact ⟨by simp, by simp, by simp, getLsbD_of_lt_eight (by decide)⟩
  · have hne : a ≠ b := by rintro rfl; exact absurd h (by simp)
    have hlt : b.toNat < a.toNat := h
    exact ⟨by simp [hne], by simp [hlt], by simp [hlt.le], getLsbD_of_lt_eight (by decide)⟩
  · have hne : a ≠ b := by rintro rfl; exact absurd h (by simp)
    have hlt : a.toNat < b.toNat := h
    exact ⟨by simp [hne], by simp [hlt.le], by simp [hlt], getLsbD_of_lt_eight (by decide)⟩

/-- Bit 0 of FL decides JEQ and JNE; nothing else of FL is read (10_state.md R26). -/
theorem effect_of_fl_changed (i : Instr) (s : State) (f : Byte)
    (h : f.getLsbD 0 = s.fl.getLsbD 0 ∨ ∀ r, i ≠ .jeq r ∧ i ≠ .jne r) :
    { effect i { s with fl := f } with fl := (effect i s).fl } = effect i s := by
  cases i with
  | jeq | jne =>
    have he : flagE f = flagE s.fl := h.resolve_right (by simp)
    dsimp only [effect]; rw [he]; split <;> rfl
  | _ => rfl

/-- Settles O19: only the effect of CMP touches FL, and only JEQ and JNE look at it, at bit 0. -/
theorem flagsRegisterBits : Obligations.FlagsRegisterBits := by
  refine ⟨rfl, fun i s t h hne => ?_, fun s t ra rb ha hb h => ?_, fun i s f h => ?_⟩
  · rcases exec_fl_cases h with e | ⟨ra, rb, hi, -⟩
    · exact absurd e hne
    · exact ⟨ra, rb, hi⟩
  · obtain rfl : _ = t := Host.Outcome.next.inj ((withRegs_of_lt ha hb).symm.trans h)
    exact compareFlags_bits _ _
  · exact exec_related (R := fun t u => { u with fl := t.fl } = t) (fun _ => by cases i <;> rfl) (fun _ _ => rfl)
      fun _ => effect_of_fl_changed i s f h

/-- Settles O20: a step that runs no instruction keeps FL, and an instruction keeps it or is CMP. -/
theorem flagsStayOneOfFourValues : Obligations.FlagsStayOneOfFourValues := by
  refine ⟨.inl rfl, fun s t hs h => ?_, fun s t h hne => ?_⟩
  · rcases step_decodes_or_keeps h with ⟨i, -, -, he⟩ | ⟨st, rfl⟩
    · exact exec_flLegal hs he
    · exact hs
  · rcases step_decodes_or_keeps h with ⟨i, hrun, hi, he⟩ | ⟨st, rfl⟩
    · obtain ⟨ra, rb, rfl, hw, -⟩ := (exec_fl_cases he).resolve_left hne
      obtain ⟨ha, hb⟩ := (wf_two_fields rfl).1 hw
      exact ⟨ra, rb, ha, hb, hrun, hi⟩
    · exact absurd rfl hne

/-! ### The output stream -/

theorem exec_out_cases {i : Instr} {s t : State} (h : exec i s = .next t) :
    t.out = s.out ∨ ∃ r, i = .prn r ∧ i.wf = true ∧ t.out = s.out ++ [s.reg (fieldReg r)] := by
  rcases exec_next_cases h with ⟨-, rfl⟩ | ⟨-, -, rfl⟩ | ⟨hw, -, rfl⟩
  · exact .inl rfl
  · exact .inl rfl
  · by_cases hc : ∃ r, i = .prn r
    · obtain ⟨r, rfl⟩ := hc
      exact .inr ⟨r, rfl, hw, rfl⟩
    · exact .inl (effect_out s fun r e => hc ⟨r, e⟩)

/-- Settles O21: a step that runs no instruction keeps the output, and an instruction keeps it or is PRN. -/
theorem outputStreamHoldsPrnBytes : Obligations.OutputStreamHoldsPrnBytes := by
  refine ⟨rfl, fun s t r hr hrun hi h => ?_, fun s t h hne => ?_⟩
  · rw [step_of_decode hrun hi] at h
    obtain rfl : _ = t := Host.Outcome.next.inj ((withReg_of_lt hr).symm.trans h)
    exact ⟨rfl, rfl⟩
  · rcases step_decodes_or_keeps h with ⟨i, hrun, hi, he⟩ | ⟨st, rfl⟩
    · obtain ⟨r, rfl, hw, -⟩ := (exec_out_cases he).resolve_left hne
      exact ⟨r, (wf_one_field rfl).1 hw, hrun, hi⟩
    · exact absurd rfl hne

/-! ### The registers an instruction writes -/

theorem exec_writtenRegs {i : Instr} {s t : State} {k : RegIdx} (h : exec i s = .next t) (hne : t.reg k ≠ s.reg k) :
    i.wf = true ∧ k ∈ writtenRegs i := by
  rcases exec_next_cases h with ⟨-, rfl⟩ | ⟨-, -, rfl⟩ | ⟨hw, -, rfl⟩
  · exact absurd rfl hne
  · exact absurd rfl hne
  · exact ⟨hw, by_contra fun hk => hne (effect_reg s hk)⟩

/-- Settles O42: the written registers, read off instruction by instruction. -/
theorem onlyNamedRegistersChange : Obligations.OnlyNamedRegistersChange := by
  intro i s t k h hne
  obtain ⟨hw, hk⟩ := exec_writtenRegs h hne
  cases i with
  | hlt | cmp | prn | jmp | jeq | jne => simp [writtenRegs] at hk
  | ret | push | call => simpa [writtenRegs, Fin.ext_iff, spIdx] using hk
  | pop | not | ldi =>
    simpa [writtenRegs, Fin.ext_iff, spIdx, fieldReg_val ((wf_one_field rfl).1 hw)] using hk
  | add | mul | mod | and | or | xor | shl | shr =>
    simpa [writtenRegs, Fin.ext_iff, fieldReg_val ((wf_two_fields rfl).1 hw).1] using hk

/-! ### Reset and register writes -/

/-- Settles O13: each field is the constant `State.reset` names, and the empty memory reads 0x00. -/
theorem resetStateValues : Obligations.ResetStateValues :=
  ⟨rfl, rfl, rfl, reset_load, rfl, rfl⟩

/-- Settles O16, SP's wraps included. -/
theorem registerWriteIsModulo256 : Obligations.RegisterWriteIsModulo256 := by
  refine ⟨fun s i v => ⟨?_, fun j h => reg_setReg_other s i j v h⟩, fun s h => ?_, fun s h => ?_⟩
  · rw [reg_setReg_same, narrow_toNat_emod]
  · rw [decSp_sp, h]; rfl
  · rw [incSp_sp, h]; rfl

/-! ### The registers an instruction reads -/

/-- The registers an instruction reads (10_state.md R21, column "reads"). -/
def readRegs : Instr → List RegIdx
  | .add ra rb | .mul ra rb | .mod ra rb | .and ra rb | .or ra rb | .xor ra rb | .shl ra rb | .shr ra rb
  | .cmp ra rb => [fieldReg ra, fieldReg rb]
  | .not ra | .prn ra | .jmp ra | .jeq ra | .jne ra => [fieldReg ra]
  | .push r | .call r => [fieldReg r, spIdx]
  | .pop _ | .ret => [spIdx]
  | .ldi _ _ | .hlt => []

/-- The two states differ in register `k` at most. -/
structure SameBut (k : RegIdx) (s u : State) : Prop where
  pc : u.pc = s.pc
  fl : u.fl = s.fl
  mem : u.mem = s.mem
  out : u.out = s.out
  status : u.status = s.status
  reg : ∀ j, j ≠ k → u.reg j = s.reg j

namespace SameBut

variable {k : RegIdx} {s u : State}

theorem of_setReg (s : State) (k : RegIdx) (v : Int) : SameBut k s (s.setReg k v) :=
  ⟨rfl, rfl, rfl, rfl, rfl, fun j hj => reg_setReg_other s k j v hj⟩

theorem setReg (h : SameBut k s u) (i : RegIdx) {v w : Int} (hv : w = v) :
    SameBut k (s.setReg i v) (u.setReg i w) where
  pc := h.pc
  fl := h.fl
  mem := h.mem
  out := h.out
  status := h.status
  reg j hj := by rw [reg_setReg, reg_setReg, h.reg j hj, hv]

theorem setPc (h : SameBut k s u) {v w : Int} (hv : w = v) : SameBut k (s.setPc v) (u.setPc w) :=
  ⟨congrArg narrow hv, h.fl, h.mem, h.out, h.status, h.reg⟩

theorem advance (h : SameBut k s u) (n : Nat) : SameBut k (s.advance n) (u.advance n) :=
  h.setPc (by rw [h.pc])

theorem jumpTo (h : SameBut k s u) {i : RegIdx} (hi : i ≠ k) : SameBut k (s.jumpTo i) (u.jumpTo i) :=
  h.setPc (by rw [h.reg i hi])

theorem setFl (h : SameBut k s u) {a b : Byte} (hb : b = a) : SameBut k (s.setFl a) (u.setFl b) :=
  ⟨h.pc, hb, h.mem, h.out, h.status, h.reg⟩

theorem emit (h : SameBut k s u) {a b : Byte} (hb : b = a) : SameBut k (s.emit a) (u.emit b) :=
  ⟨h.pc, h.fl, h.mem, by rw [emit_out, emit_out, h.out, hb], h.status, h.reg⟩

theorem setStatus (h : SameBut k s u) {st st' : Status} (hst : st' = st) :
    SameBut k (s.setStatus st) (u.setStatus st') :=
  ⟨h.pc, h.fl, h.mem, h.out, hst, h.reg⟩

theorem store (h : SameBut k s u) {a b : Byte} {v w : Int} (ha : b = a) (hv : w = v) :
    SameBut k (s.store a v) (u.store b w) :=
  ⟨h.pc, h.fl, by rw [store_mem, store_mem, h.mem, ha, hv], h.out, h.status, h.reg⟩

theorem load (h : SameBut k s u) {a b : Byte} (ha : b = a) : u.load b = s.load a := by
  rw [State.load, State.load, h.mem, ha]

theorem sp (h : SameBut k s u) (hk : spIdx ≠ k) : u.sp = s.sp := h.reg spIdx hk

theorem decSp (h : SameBut k s u) (hk : spIdx ≠ k) : SameBut k s.decSp u.decSp :=
  h.setReg spIdx (by rw [h.sp hk])

theorem incSp (h : SameBut k s u) (hk : spIdx ≠ k) : SameBut k s.incSp u.incSp :=
  h.setReg spIdx (by rw [h.sp hk])

theorem pushWith (h : SameBut k s u) (hk : spIdx ≠ k) {f : State → Int} (hf : f u.decSp = f s.decSp) :
    SameBut k (s.pushWith f) (u.pushWith f) :=
  (h.decSp hk).store ((h.decSp hk).sp hk) hf

theorem aluEffect (h : SameBut k s u) (g : Byte → Byte → Int) {ra rb : Byte} (ha : fieldReg ra ≠ k)
    (hb : fieldReg rb ≠ k) : SameBut k (aluEffect g ra rb s) (aluEffect g ra rb u) :=
  (h.setReg _ (by rw [h.reg _ ha, h.reg _ hb])).advance 3

end SameBut

/-- A register the instruction does not read has no influence on the rest of its effect. -/
theorem effect_sameBut {i : Instr} {k : RegIdx} {s u : State} (hk : ∀ j ∈ readRegs i, j ≠ k) (h : SameBut k s u) :
    SameBut k (effect i s) (effect i u) := by
  cases i with
  | hlt => exact h.setStatus rfl
  | ldi r imm => exact (h.setReg _ rfl).advance 3
  | ret =>
    have hsp : spIdx ≠ k := hk _ (by simp [readRegs])
    exact (h.setPc (by rw [h.load (h.sp hsp)])).incSp hsp
  | pop r =>
    have hsp : spIdx ≠ k := hk _ (by simp [readRegs])
    exact ((h.setReg _ (by rw [h.load (h.sp hsp)])).incSp hsp).advance 2
  | push r =>
    obtain ⟨hr, hsp⟩ : fieldReg r ≠ k ∧ spIdx ≠ k := by simpa [readRegs] using hk
    exact (h.pushWith hsp (by rw [(h.decSp hsp).reg _ hr])).advance 2
  | call r =>
    obtain ⟨hr, hsp⟩ : fieldReg r ≠ k ∧ spIdx ≠ k := by simpa [readRegs] using hk
    exact (h.pushWith hsp (by rw [(h.decSp hsp).pc])).jumpTo hr
  | prn r =>
    have hr : fieldReg r ≠ k := hk _ (by simp [readRegs])
    exact (h.emit (h.reg _ hr)).advance 2
  | jmp r => exact h.jumpTo (hk _ (by simp [readRegs]))
  | jeq r =>
    dsimp only [effect]; rw [h.fl]; split
    · exact h.jumpTo (hk _ (by simp [readRegs]))
    · exact h.advance 2
  | jne r =>
    dsimp only [effect]; rw [h.fl]; split
    · exact h.advance 2
    · exact h.jumpTo (hk _ (by simp [readRegs]))
  | not ra =>
    have ha : fieldReg ra ≠ k := hk _ (by simp [readRegs])
    exact (h.setReg _ (by rw [h.reg _ ha])).advance 3
  | cmp ra rb =>
    obtain ⟨ha, hb⟩ : fieldReg ra ≠ k ∧ fieldReg rb ≠ k := by simpa [readRegs] using hk
    exact (h.setFl (by rw [h.reg _ ha, h.reg _ hb])).advance 3
  | add | mul | mod | and | or | xor | shl | shr =>
    exact h.aluEffect _ (hk _ (by simp [readRegs])) (hk _ (by simp [readRegs]))

/-- The divisor is a register that is read. -/
theorem divisorIsZero_sameBut {i : Instr} {k : RegIdx} {s u : State} (hk : ∀ j ∈ readRegs i, j ≠ k)
    (h : SameBut k s u) : divisorIsZero i s ↔ divisorIsZero i u := by
  cases i with
  | mod ra rb =>
    have hb : fieldReg rb ≠ k := hk _ (by simp [readRegs])
    simp only [divisorIsZero, h.reg _ hb]
  | _ => exact Iff.rfl

/-- An instruction's answers in two states that differ in a register it does not read. -/
theorem exec_sameBut {i : Instr} {k : RegIdx} {s u : State} (hk : i.wf = true → ∀ j ∈ readRegs i, j ≠ k)
    (h : SameBut k s u) : ∃ t t', exec i s = .next t ∧ exec i u = .next t' ∧ SameBut k t t' :=
  exec_related (fun hw => divisorIsZero_sameBut (hk hw) h) (fun _ _ => h.setStatus (by rw [h.pc]))
    fun hw => effect_sameBut (hk hw) h

theorem fieldReg_ne {f : Byte} {k : RegIdx} (hf : f.toNat < 8) (h : k.val ≠ f.toNat) : fieldReg f ≠ k := by
  rintro rfl; exact h (fieldReg_val hf)

theorem spIdx_ne {k : RegIdx} (h : k.val ≠ 7) : spIdx ≠ k := by
  rintro rfl; exact h rfl

/-- Settles O43: the two states differ in a register that is not read, and every operation of an effect keeps it so. -/
theorem onlyNamedRegistersAreRead : Obligations.OnlyNamedRegistersAreRead := by
  intro i s k v hk
  have hread (hw : i.wf = true) : ∀ j ∈ readRegs i, j ≠ k := by
    cases i with
    | ldi | hlt => simp [readRegs]
    | pop | ret => simpa [readRegs] using spIdx_ne hk
    | push | call => simpa [readRegs] using ⟨fieldReg_ne ((wf_one_field rfl).1 hw) hk.1, spIdx_ne hk.2⟩
    | not | prn | jmp | jeq | jne => simpa [readRegs] using fieldReg_ne ((wf_one_field rfl).1 hw) hk
    | add | mul | mod | cmp | and | or | xor | shl | shr =>
      have hf := (wf_two_fields rfl).1 hw
      simpa [readRegs] using ⟨fieldReg_ne hf.1 hk.1, fieldReg_ne hf.2 hk.2⟩
  obtain ⟨t, u, ht, hu, h⟩ := exec_sameBut hread (SameBut.of_setReg s k v.toNat)
  exact ⟨t, u, ht, hu, h.pc, h.fl, h.mem, h.out, h.status, h.reg⟩

end Sys2Proof.Machine

/-! # The memory (20_memory.md) -/

namespace Sys2Proof.Machine

/-! ### Writes and reads -/

/-- Narrowing a number keeps its low 8 bits. -/
theorem narrow_natCast_eq_and (v : Nat) : narrow (v : Int) = BitVec.ofNat 8 (v &&& 0xFF) := by
  rw [narrow_natCast, show 0xFF = 2 ^ 8 - 1 from rfl, Nat.and_two_pow_sub_one_eq_mod]
  exact BitVec.eq_of_toNat_eq (by simp)

theorem load_store_other (s : State) {a b : Byte} (v : Int) (h : b ≠ a) : (s.store a v).load b = s.load b :=
  memRead_write_other _ _ _ _ h

/-- Settles O17: a read after a write, at the same cell and at another. -/
theorem memoryWriteStoresOneByte : Obligations.MemoryWriteStoresOneByte := fun s a v =>
  ⟨(load_store_same s a v).trans (narrow_natCast_eq_and v), fun _ h => load_store_other s v h, rfl⟩

/-- Settles O18, by induction on the writes from the last one back: it is the answer or it leaves the cell alone. -/
theorem readReturnsMostRecentWrite : Obligations.ReadReturnsMostRecentWrite := by
  intro writes s a
  induction writes using List.reverseRecOn with
  | nil => rfl
  | append_singleton earlier last ih =>
    rw [List.foldl_append, List.foldl_cons, List.foldl_nil, List.reverse_append, List.reverse_singleton,
      List.singleton_append]
    by_cases h : last.1 = a
    · rw [List.find?_cons_of_pos (by simpa using h), ← h, load_store_same, narrow_toNat]
    · rw [List.find?_cons_of_neg (by simpa using h), load_store_other _ _ (Ne.symm h)]
      exact ih

/-! ### The cells an instruction touches -/

@[simp] theorem advance_load (s : State) (n : Nat) (a : Byte) : (s.advance n).load a = s.load a := rfl

@[simp] theorem jumpTo_load (s : State) (i : RegIdx) (a : Byte) : (s.jumpTo i).load a = s.load a := rfl

theorem pushWith_load_same (s : State) (f : State → Int) : (s.pushWith f).load (s.sp - 1#8) = narrow (f s.decSp) :=
  (pushWith_load s f _).trans (if_pos rfl)

/-- PUSH and CALL change at most the cell below SP; the other instructions change none. -/
theorem effect_load {i : Instr} {s : State} {a : Byte} (h : a ≠ s.sp - 1#8 ∨ ∀ r, i ≠ .push r ∧ i ≠ .call r) :
    (effect i s).load a = s.load a := by
  cases i with
  | push | call =>
    have ha : a ≠ s.sp - 1#8 := h.resolve_right (by simp)
    simp only [effect, advance_load, jumpTo_load, pushWith_load, if_neg ha]
  | _ => exact congrArg (memRead · a) (effect_mem s (by simp))

theorem exec_load {i : Instr} {s t : State} {a : Byte} (ht : exec i s = .next t)
    (h : a ≠ s.sp - 1#8 ∨ ∀ r, i ≠ .push r ∧ i ≠ .call r) : t.load a = s.load a := by
  rcases exec_next_cases ht with ⟨-, rfl⟩ | ⟨-, -, rfl⟩ | ⟨-, -, rfl⟩
  · rfl
  · rfl
  · exact effect_load h

/-- Outside memory, an effect depends on memory only through the cell at SP, and only for POP and RET. -/
theorem effect_of_mem_changed {i : Instr} {s : State} {m : Memory}
    (h : memRead m s.sp = s.load s.sp ∨ i ≠ .ret ∧ ∀ r, i ≠ .pop r) :
    ∃ m', effect i { s with mem := m } = { effect i s with mem := m' } := by
  cases i with
  | ret =>
    have hm : memRead m s.sp = s.load s.sp := h.resolve_right (by simp)
    exact ⟨m, congrArg (fun b : Byte => { (s.setPc b.toNat).incSp with mem := m }) hm⟩
  | pop r =>
    have hm : memRead m s.sp = s.load s.sp := h.resolve_right (by simp)
    exact ⟨m, congrArg (fun b : Byte => { (s.setReg (fieldReg r) b.toNat).incSp.advance 2 with mem := m }) hm⟩
  | jeq | jne => exact ⟨m, by dsimp only [effect]; split <;> rfl⟩
  | _ => exact ⟨_, rfl⟩

/-- Settles O41: only a push writes, below SP, and only a pop reads, at SP. -/
theorem memoryTouchedOnlyThroughSp : Obligations.MemoryTouchedOnlyThroughSp := by
  refine ⟨fun i s t a ht hne => ⟨?_, ?_⟩, fun i s a v h => ?_⟩
  · exact by_contra fun ha => hne (exec_load ht (.inl ha))
  · by_contra hi
    exact hne (exec_load ht (.inr (by simpa [not_or] using hi)))
  · have hread := h.imp_left fun ha => load_store_other s (b := s.sp) v.toNat (Ne.symm ha)
    obtain ⟨t, _, ht, hu, m, rfl⟩ := exec_related (i := i) (s := s) (u := s.store a v.toNat)
      (R := fun t u => ∃ m, u = { t with mem := m })
      (fun _ => by cases i <;> rfl) (fun _ _ => ⟨_, rfl⟩) fun _ => effect_of_mem_changed hread
    exact ⟨t, _, ht, hu, rfl, rfl, rfl, rfl, rfl⟩

/-! ### A push onto the bytes of the program (R53; log 16) -/

theorem exec_push_of_lt {r : Byte} (hr : r.toNat < 8) (s : State) :
    exec (.push r) s = .next ((s.pushWith fun t => (t.reg ⟨r.toNat, hr⟩).toNat).advance 2) :=
  withReg_of_lt hr

theorem exec_call_of_lt {r : Byte} (hr : r.toNat < 8) (s : State) :
    exec (.call r) s = .next ((s.pushWith fun t => (narrow (t.pc.toNat + 2)).toNat).jumpTo ⟨r.toNat, hr⟩) :=
  withReg_of_lt hr

/-- The register file after SP is decremented. -/
theorem decSp_regs (s : State) : s.decSp.regs = s.regs.set 7 (s.regs[7] - 1#8) :=
  congrArg (s.regs.set 7 ·) (narrow_sub_one s.regs[7])

/-- Settles O47: CALL's target comes from the fetched field, and the pushed return address stands in the field's cell. -/
theorem callKeepsItsFetchedOperand : Obligations.CallKeepsItsFetchedOperand := by
  intro s r hr hrun hop hfield hsp
  have hdec : decode (s.load s.pc) (s.load (s.pc + 1#8)) (s.load (s.pc + 2#8)) = .ok (.call r) := by
    rw [hop, hfield]; rfl
  refine ⟨_, (step_of_decode hrun hdec).trans (exec_call_of_lt hr s), ?_, ?_⟩
  · calc narrow (s.decSp.regs[r.toNat]).toNat = s.decSp.regs[r.toNat] := narrow_toNat _
      _ = (s.regs.set 7 (s.regs[7] - 1#8))[r.toNat] := by simp only [decSp_regs]
  · rw [jumpTo_load, ← hsp]
    exact (pushWith_load_same s _).trans ((narrow_toNat _).trans (narrow_add s.pc 2))

/-- Settles O48: PUSH stores at pc + 2 and goes to pc + 2, where the next step fetches. -/
theorem pushedByteIsFetchedNext : Obligations.PushedByteIsFetchedNext := by
  intro s r hr hrun hop hfield hsp
  have hdec : decode (s.load s.pc) (s.load (s.pc + 1#8)) (s.load (s.pc + 2#8)) = .ok (.push r) := by
    rw [hop, hfield]; rfl
  have hr8 : r.toNat < 8 := by omega
  have hnotSp : (⟨r.toNat, hr8⟩ : RegIdx) ≠ spIdx := fun e => hr.ne (congrArg Fin.val e)
  have hpc : ((s.pushWith fun t => (t.reg ⟨r.toNat, hr8⟩).toNat).advance 2).pc = s.pc + 2#8 := narrow_add s.pc 2
  refine ⟨_, (step_of_decode hrun hdec).trans (exec_push_of_lt hr8 s), hpc, ?_⟩
  rw [fetch_eq, hpc, ← hsp, advance_load]
  calc (s.pushWith _).load (s.sp - 1#8) = narrow (s.decSp.reg ⟨r.toNat, hr8⟩).toNat := pushWith_load_same s _
    _ = s.decSp.reg ⟨r.toNat, hr8⟩ := narrow_toNat _
    _ = s.regs[r.toNat] := reg_setReg_other s _ _ _ hnotSp

end Sys2Proof.Machine

/-! # The encoding (30_encoding.md) -/

namespace Sys2Proof.Machine

/-! ### From an opcode byte to its mnemonic -/

theorem mnemonicOf_of_injective {op : Mnemonic → Byte} (hop : Function.Injective op) (m : Mnemonic) :
    mnemonicOf op (op m) = some m := by
  cases h : mnemonicOf op (op m) with
  | none => exact absurd rfl (mnemonicOf_eq_none.1 h m)
  | some m' => rw [hop (mnemonicOf_eq_some h)]

/-- Bytes that decode start with the instruction's opcode byte and hold its operands in opA and opB. -/
theorem decodeWith_eq_ok {op : Mnemonic → Byte} {b x y : Byte} {i : Instr} (h : decodeWith op b x y = .ok i) :
    b = op i.mnemonic ∧ i = assemble i.mnemonic x y := by
  rcases decodeWith_cases op b x y with ⟨m, hm, e⟩ | ⟨-, e⟩
  · obtain rfl : assemble m x y = i := Except.ok.inj (e.symm.trans h)
    rw [assemble_mnemonic]
    exact ⟨(mnemonicOf_eq_some hm).symm, rfl⟩
  · cases e.symm.trans h

/-! ### The opcode map (R63, R65, R66) -/

theorem decode_opcodeByte (m : Mnemonic) (opA opB : Byte) : decode (opcodeByte m) opA opB = .ok (assemble m opA opB) :=
  decode_of_mnemonicOf (mnemonicOf_of_injective opcodeByte_injective m)

theorem decode_of_ne_opcodeByte {b : Byte} (h : ∀ m, opcodeByte m ≠ b) (opA opB : Byte) :
    decode b opA opB = .error (.unknownOpcode b) := by
  rw [decode, decodeWith, mnemonicOf_eq_none.2 h]

theorem mem_map_opcodeByte_iff {b : Byte} : b ∈ Mnemonic.all.map opcodeByte ↔ ∃ m, opcodeByte m = b := by
  simp [Mnemonic.mem_all]

/-- Settles O53: six of the first bytes are opcodes of the table, and 0xA1 is none. -/
theorem writtenOutWordsDecode : Obligations.WrittenOutWordsDecode :=
  ⟨decode_opcodeByte .ldi _ _, decode_opcodeByte .mul _ _, decode_opcodeByte .not _ _, decode_opcodeByte .push _ _,
    decode_opcodeByte .call _ _, decode_opcodeByte .hlt _ _,
    decode_of_ne_opcodeByte (fun m => by cases m <;> decide) _ _⟩

/-- Settles O54: the listed values are the opcode bytes of all mnemonics, and a byte decodes when it is one of them. -/
theorem decodeMatchesExactOpcodeByte : Obligations.DecodeMatchesExactOpcodeByte := by
  unfold Obligations.DecodeMatchesExactOpcodeByte
  intro legal
  have hlegal {b : Byte} : b ∈ legal ↔ ∃ m, opcodeByte m = b := mem_map_opcodeByte_iff
  refine ⟨fun opA opB => ?_, fun opcode opA opB => ⟨fun h => ?_, fun h => ?_⟩⟩
  · have row (m : Mnemonic) := decode_opcodeByte m opA opB
    exact ⟨row .hlt, row .ret, row .push, row .pop, row .prn, row .call, row .jmp, row .jeq, row .jne, row .not,
      row .ldi, row .add, row .mul, row .mod, row .cmp, row .and, row .or, row .xor, row .shl, row .shr⟩
  · obtain ⟨m, rfl⟩ := hlegal.1 h
    exact ⟨_, decode_opcodeByte m opA opB, by rw [assemble_mnemonic]⟩
  · exact decode_of_ne_opcodeByte (fun m hm => h (hlegal.2 ⟨m, hm⟩)) opA opB

/-! ### Operand bytes (R61, R62) -/

/-- Every encoding is as long as R61 says. -/
theorem length_encodeWith (op : Mnemonic → Byte) (i : Instr) : (encodeWith op i).length = i.mnemonic.length := by
  cases i <;> rfl

/-- An instruction is assembled from its operand bytes, whatever bytes follow them. -/
theorem assemble_operandBytes_append (i : Instr) (rest : List Byte) :
    assemble i.mnemonic ((i.operandBytes ++ rest).getD 0 0) ((i.operandBytes ++ rest).getD 1 0) = i := by
  cases i <;> rfl

/-- The encoding of assembled bytes keeps those the format uses; NOT's pad becomes 0x00 (R68). -/
theorem encodeWith_assemble (op : Mnemonic → Byte) (m : Mnemonic) (x y : Byte) :
    encodeWith op (assemble m x y) = if m = .not then [op m, x, 0x00#8] else [op m, x, y].take m.length := by
  cases m <;> rfl

/-- Settles O56: the bytes are the opcode byte of the instruction and the operands it was assembled from. -/
theorem encodeOfDecodeGivesUsedBytes : Obligations.EncodeOfDecodeGivesUsedBytes := by
  intro b0 b1 b2 i h
  obtain ⟨rfl, hi⟩ := decodeWith_eq_ok h
  exact (congrArg encode hi).trans (encodeWith_assemble opcodeByte i.mnemonic b1 b2)

/-! ### Reading an encoding back (R67, R68) -/

/-- The list decoder takes as many operand bytes as the opcode's length asks for and leaves the rest. -/
theorem decodeListWith_of_length {op : Mnemonic → Byte} {b : Byte} {m : Mnemonic} (hm : mnemonicOf op b = some m)
    {operands : List Byte} (hlen : operands.length + 1 = m.length) (rest : List Byte) :
    decodeListWith op (b :: (operands ++ rest)) = .ok (assemble m (operands.getD 0 0) (operands.getD 1 0), rest) := by
  match operands, hlen with
  | [], hlen | [_], hlen | [_, _], hlen => simp [decodeListWith, hm, ← hlen]
  | _ :: _ :: _ :: _, hlen =>
    have hle : m.length ≤ 3 := by cases m <;> decide
    simp only [List.length_cons] at hlen
    omega

theorem decodeListWith_encodeWith {op : Mnemonic → Byte} (hop : Function.Injective op) (i : Instr) (rest : List Byte) :
    decodeListWith op (encodeWith op i ++ rest) = .ok (i, rest) := by
  have hread := decodeListWith_of_length (mnemonicOf_of_injective hop i.mnemonic) (length_encodeWith op i) rest
  have hi := assemble_operandBytes_append i []
  rw [List.append_nil] at hi
  rwa [hi] at hread

/-- The core's three-byte window at the first byte of an encoding. -/
theorem decodeWith_encodeWith {op : Mnemonic → Byte} (hop : Function.Injective op) {i : Instr} {rest more : List Byte}
    {b0 b1 b2 : Byte} (h : encodeWith op i ++ rest = b0 :: b1 :: b2 :: more) : decodeWith op b0 b1 b2 = .ok i := by
  obtain ⟨rfl, hbytes⟩ : op i.mnemonic = b0 ∧ i.operandBytes ++ rest = b1 :: b2 :: more := List.cons.inj h
  have hi := assemble_operandBytes_append i rest
  rw [hbytes] at hi
  rw [decodeWith, mnemonicOf_of_injective hop]
  exact congrArg Except.ok hi

/-- Settles O55: an injective OPCODE gives the mnemonic back, and the operand bytes give the operands back. -/
theorem decodeOfEncodeIsIdentity : Obligations.DecodeOfEncodeIsIdentity := fun _ hop i rest =>
  ⟨decodeListWith_encodeWith hop i rest, fun _ _ _ _ h => decodeWith_encodeWith hop h⟩

theorem encodeProgramWith_cons (op : Mnemonic → Byte) (i : Instr) (p : List Instr) :
    encodeProgramWith op (i :: p) = encodeWith op i ++ encodeProgramWith op p := List.flatMap_cons

theorem decodeProgramWith_succ {op : Mnemonic → Byte} {n : Nat} {b : Byte} {bs rest : List Byte} {i : Instr}
    {p : List Instr} (hfirst : decodeListWith op (b :: bs) = .ok (i, rest))
    (hrest : decodeProgramWith op n rest = .ok p) : decodeProgramWith op (n + 1) (b :: bs) = .ok (i :: p) := by
  simp only [decodeProgramWith, hfirst, hrest]

/-- Settles O57, by induction on the program: the first instruction reads back and leaves the bytes of the others. -/
theorem programBytesReadBack : Obligations.ProgramBytesReadBack := by
  intro op hop p
  induction p with
  | nil => rfl
  | cons i p ih =>
    rw [encodeProgramWith_cons]
    exact decodeProgramWith_succ (decodeListWith_encodeWith hop i _) ih

/-! ### The sequential advance (R60, 40_dispatcher.md R89) -/

/-- An instruction that neither halts nor transfers control goes on after its own bytes. -/
theorem effect_pc {i : Instr} {s : State} (hhlt : i ≠ .hlt) (hjump : ∀ r, i ≠ .call r ∧ i ≠ .jmp r) (hret : i ≠ .ret)
    (hjeq : ∀ r, i = .jeq r → flagE s.fl = false) (hjne : ∀ r, i = .jne r → flagE s.fl = true) :
    (effect i s).pc = narrow (s.pc.toNat + i.mnemonic.length) := by
  cases i with
  | hlt => exact absurd rfl hhlt
  | ret => exact absurd rfl hret
  | call r => exact absurd rfl (hjump r).1
  | jmp r => exact absurd rfl (hjump r).2
  | jeq r => simp only [effect, hjeq r rfl]; rfl
  | jne r => simp only [effect, hjne r rfl]; rfl
  | _ => rfl

/-- Settles O40: a state that still runs is an effect, and not HLT's; its PC is past the encoding. -/
theorem pcAdvancesByEncodedLength : Obligations.PcAdvancesByEncodedLength := by
  intro i s t h hrun hjump hret hjeq hjne
  rcases exec_next_cases h with ⟨-, rfl⟩ | ⟨-, -, rfl⟩ | ⟨-, -, rfl⟩
  · cases hrun
  · cases hrun
  · have hhlt : i ≠ .hlt := by rintro rfl; cases hrun
    rw [effect_pc hhlt hjump hret hjeq hjne, narrow_add, encode, length_encodeWith]

end Sys2Proof.Machine

/-! # The dispatcher (40_dispatcher.md) -/

namespace Sys2Proof.Machine

/-! ### Total answers (R81; log 22, log 13) -/

/-- An opcode byte of no instruction: the fault of R87, with the address and the byte recorded. -/
theorem step_of_unknownOpcode {s : State} (hs : s.status = .running) (hop : ∀ m, opcodeByte m ≠ s.load s.pc) :
    step s = .next { s with status := .faulted .unknownOpcode ⟨s.pc, s.load s.pc⟩ } := by
  simp [step, hs, runCycle, Latch.decoded, fetch_eq, decode_of_ne_opcodeByte hop, raiseFault, State.setStatus]

theorem exec_answers (i : Instr) (s : State) : ∃ t, exec i s = .next t := by
  cases hw : i.wf with
  | false => exact ⟨_, exec_of_not_wf hw s⟩
  | true =>
    by_cases hd : divisorIsZero i s
    · exact ⟨_, exec_of_divisorIsZero hw hd⟩
    · exact ⟨_, exec_of_wf hw hd⟩

theorem step_answers (s : State) : ∃ t, step s = .next t := by
  by_cases hs : s.status = .running
  · cases hm : mnemonicOf opcodeByte (s.load s.pc) with
    | none => exact ⟨_, step_of_unknownOpcode hs (mnemonicOf_eq_none.1 hm)⟩
    | some m =>
      rw [step_of_decode hs (decode_of_mnemonicOf hm)]
      exact exec_answers _ s
  · exact ⟨s, step_of_not_running hs⟩

/-- Settles O1: the latched bytes are the cells at pc, pc + 1 and pc + 2. -/
theorem stepRunsDecodedInstruction : Obligations.StepRunsDecodedInstruction :=
  fun _ _ => step_of_decode

/-- Settles O2: the byte decodes to nothing, and the fault records it. -/
theorem unknownOpcodeFaultsTheStep : Obligations.UnknownOpcodeFaultsTheStep :=
  fun _ hs hop => ⟨_, step_of_unknownOpcode hs hop⟩

/-- Settles O7: fault entry and effect are next states, and so is a stopped core's own state. -/
theorem everyStepAnswersNextState : Obligations.EveryStepAnswersNextState :=
  ⟨step_answers, exec_answers⟩

/-! ### Register fields (R88; log 4) -/

theorem not_wf_iff {i : Instr} : i.wf = false ↔ ∃ f ∈ i.regFields, 7 < f.toNat := by
  simp [Instr.wf, validField]

/-- The effect of an instruction on a running core leaves it running or, for HLT, halts it; faults are entered before
the effect. -/
theorem effect_not_faulted {i : Instr} {s : State} (hs : s.status = .running) (f : Fault) (d : Diagnostic) :
    (effect i s).status ≠ .faulted f d := by
  by_cases hi : i = .hlt
  · subst hi; nofun
  · rw [effect_status s hi, hs]; nofun

/-- Settles O11: the field check comes first; past it, only the divisor check enters a fault, of another kind. -/
theorem invalidRegisterFieldFaults : Obligations.InvalidRegisterFieldFaults := by
  refine ⟨fun i s hf => exec_of_not_wf (not_wf_iff.2 hf) s, fun i s t d hs hf h => ?_⟩
  have hwf : i.wf = true := wf_iff.2 fun f hm => Nat.lt_succ_of_le (hf f hm)
  rcases exec_next_cases h with ⟨hw, -⟩ | ⟨-, -, rfl⟩ | ⟨-, -, rfl⟩
  · cases hwf.symm.trans hw
  · nofun
  · exact effect_not_faulted hs _ d

/-! ### The trace port (R83) and faulting steps (R90) -/

theorem tracePort_of_running {s : State} (hs : s.status = .running) : tracePort s = some ⟨s.pc, fetch s, s.regs⟩ := by
  rw [tracePort, hs]

theorem tracePort_of_not_running {s : State} (hs : s.status ≠ .running) : tracePort s = none := by
  unfold tracePort
  split
  · next h => exact absurd h hs
  · rfl
  · rfl

/-- Settles O50: the record holds the latch, which is the three cells from pc on. -/
theorem traceShowsStateBeforeExecution : Obligations.TraceShowsStateBeforeExecution :=
  fun s => ⟨fun hs => by rw [tracePort_of_running hs, fetch_eq], tracePort_of_not_running⟩

/-- The instruction entered a fault, so it wrote the status alone. -/
theorem exec_faulted {i : Instr} {s t : State} {f : Fault} {d : Diagnostic} (hs : s.status = .running)
    (h : exec i s = .next t) (ht : t.status = .faulted f d) : t = { s with status := .faulted f d } := by
  rcases exec_next_cases h with ⟨-, rfl⟩ | ⟨-, -, rfl⟩ | ⟨-, -, rfl⟩
  · rw [← ht]
  · rw [← ht]
  · exact absurd ht (effect_not_faulted hs f d)

/-- Settles O5: an unknown opcode and a faulting instruction both write the status alone, and every step of a running
core is traced. -/
theorem faultingStepChangesOnlyStatus : Obligations.FaultingStepChangesOnlyStatus := by
  intro s t f d hs h ht
  refine ⟨?_, by rw [tracePort_of_running hs]; rfl⟩
  rcases step_next_cases h with ⟨m, -, -, he⟩ | ⟨-, -, rfl⟩ | ⟨hn, -⟩
  · exact exec_faulted hs he ht
  · rw [← ht]
  · exact absurd hs hn

/-! ### A loop of one JMP (R92, 43_control.md R152) -/

/-- A state that steps to itself is where any number of steps ends. -/
theorem run_of_step_self {M : Host.Core} {s : M.State} (h : M.step s = .next s) (k : Nat) : M.run k s = .next s := by
  induction k with
  | zero => rfl
  | succ k ih => rw [run_succ_of_next h, ih]

theorem exec_jmp_of_lt {r : Byte} (hr : r.toNat < 8) (s : State) :
    exec (.jmp r) s = .next (s.jumpTo ⟨r.toNat, hr⟩) :=
  withReg_of_lt hr

/-- A jump to the PC's own value changes nothing. -/
theorem jumpTo_self {s : State} {i : RegIdx} (h : s.reg i = s.pc) : s.jumpTo i = s := by
  rw [State.jumpTo, h, State.setPc, narrow_toNat]

/-- Settles O49: the step answers the same state, so every run does, by induction on the budget. -/
theorem jumpToItselfNeverEnds : Obligations.JumpToItselfNeverEnds := by
  intro s r hr budget hs hop hfield htarget
  have hdec : decode (s.load s.pc) (s.load (s.pc + 1#8)) (s.load (s.pc + 2#8)) = .ok (.jmp r) := by
    rw [hop, hfield]; rfl
  have hjump : s.jumpTo ⟨r.toNat, hr⟩ = s := jumpTo_self htarget
  have hstep : step s = .next s := by rw [step_of_decode hs hdec, exec_jmp_of_lt hr, hjump]
  exact run_of_step_self (M := core) hstep budget

/-! ### Placing the next instruction (log 24) -/

@[simp] theorem placeByte_pc (w k : Nat) (s : State) : (placeByte w k s).pc = s.pc := rfl

@[simp] theorem withFetchWord_pc (s : State) (nbits w : Nat) : (s.withFetchWord nbits w).pc = s.pc := rfl

@[simp] theorem withFetchWord_status (s : State) (nbits w : Nat) : (s.withFetchWord nbits w).status = .running := rfl

theorem fetchAddr_eq (s : State) (k : Nat) : fetchAddr s k = s.pc + BitVec.ofNat 8 k := narrow_add s.pc k

theorem load_placeByte (w k : Nat) (s : State) (a : Byte) :
    (placeByte w k s).load a = if a = s.pc + BitVec.ofNat 8 k then byteOf w k else s.load a := by
  rw [placeByte, load_store, narrow_toNat, fetchAddr_eq]

/-- The three placed bytes stand in three different cells, so each is read back. -/
theorem load_withFetchWord (s : State) (nbits w : Nat) {k : Nat} (hk : k < 3) :
    (s.withFetchWord nbits w).load (s.pc + BitVec.ofNat 8 k) = byteOf (w % 2 ^ nbits) k := by
  simp only [State.withFetchWord, placeFetchWord, load_placeByte, placeByte_pc, setStatus_pc, BitVec.add_right_inj]
  interval_cases k <;> rfl

theorem decode_of_decodeTableWord {nbits w : Nat} {i : Instr} (h : decodeTableWord nbits w = some i) :
    decode (byteOf (w % 2 ^ nbits) 0) (byteOf (w % 2 ^ nbits) 1) (byteOf (w % 2 ^ nbits) 2) = .ok i := by
  simp only [decodeTableWord] at h
  split at h
  · next hd => rw [hd, Option.some.inj h]
  · cases h

/-- Settles O52: the next fetch reads the word's three bytes, which decode to the instruction. -/
theorem fetchWordIsRunNext : Obligations.FetchWordIsRunNext := by
  intro s nbits w i h
  have hload0 := load_withFetchWord s nbits w (k := 0) (by decide)
  have hload1 := load_withFetchWord s nbits w (k := 1) (by decide)
  have hload2 := load_withFetchWord s nbits w (k := 2) (by decide)
  rw [BitVec.add_zero] at hload0
  exact step_of_decode (withFetchWord_status s nbits w)
    (by rw [withFetchWord_pc, hload0, hload1, hload2, decode_of_decodeTableWord h])

end Sys2Proof.Machine

/-! # The ALU (41_alu.md) -/

namespace Sys2Proof.Machine

/-! ### PC and register writes as whole states -/

/-- The sequential advance changes PC alone (40_dispatcher.md R89; log 3). -/
theorem advance_eq (s : State) (n : Nat) : s.advance n = { s with pc := s.pc + BitVec.ofNat 8 n } :=
  congrArg (fun p => { s with pc := p }) (narrow_add s.pc n)

/-- A jump changes PC alone (43_control.md R152). -/
theorem jumpTo_eq (s : State) (i : RegIdx) : s.jumpTo i = { s with pc := s.reg i } :=
  congrArg (fun p => { s with pc := p }) (narrow_toNat (s.reg i))

/-- A register write followed by the advance changes that register and PC. -/
theorem setReg_advance_eq (s : State) (i : RegIdx) (v : Int) (n : Nat) :
    (s.setReg i v).advance n = { s with regs := s.regs.set i (narrow v), pc := s.pc + BitVec.ofNat 8 n } :=
  advance_eq _ n

/-! ### The two-register shape (R100) -/

/-- With valid fields, the ALU shape writes the narrowed result, here as the byte operation `op` that equals it, and
nothing else but PC. -/
theorem aluBinary_of_lt {m : Mnemonic} {g : Byte → Byte → Int} {op : Byte → Byte → Byte}
    (hop : ∀ a b, narrow (g a b) = op a b) {ra rb : Byte} (ha : ra.toNat < 8) (hb : rb.toNat < 8) (s : State) :
    aluBinary m g ra rb s =
      .next { s with regs := s.regs.set ra.toNat (op s.regs[ra.toNat] s.regs[rb.toNat]), pc := s.pc + 3#8 } := by
  rw [aluBinary, withRegs_of_lt ha hb, setReg_advance_eq, hop]
  rfl

/-- Settles O22: ADD is the two-register shape with the byte sum. -/
theorem addWritesSum : Obligations.AddWritesSum :=
  fun s _ _ ha hb => aluBinary_of_lt narrow_aluAdd ha hb s

/-- Settles O23: MUL is the two-register shape with the byte product. -/
theorem mulWritesLowProduct : Obligations.MulWritesLowProduct :=
  fun s _ _ ha hb => aluBinary_of_lt narrow_aluMul ha hb s

/-- Settles O25: AND, OR and XOR are the two-register shape, and a byte xor itself is 0. -/
theorem andOrXorWriteBitwiseResult : Obligations.AndOrXorWriteBitwiseResult := by
  intro s ra rb ha hb
  refine ⟨aluBinary_of_lt narrow_aluAnd ha hb s, aluBinary_of_lt narrow_aluOr ha hb s,
    aluBinary_of_lt narrow_aluXor ha hb s, ?_⟩
  exact (aluBinary_of_lt narrow_aluXor ha ha s).trans (by rw [BitVec.xor_self])

/-- Settles O27: SHL is the two-register shape, and a byte shifted by 8 or more places is 0. -/
theorem shlShiftsLeftByWholeCount : Obligations.ShlShiftsLeftByWholeCount := by
  intro s ra rb ha hb
  have hshl := aluBinary_of_lt (m := .shl) narrow_aluShl ha hb s
  exact ⟨hshl, fun hcount => hshl.trans (by rw [BitVec.shiftLeft_eq_zero hcount])⟩

/-- Settles O28: SHR is the two-register shape, and a byte shifted by 8 or more places is 0. -/
theorem shrShiftsRightByWholeCount : Obligations.ShrShiftsRightByWholeCount := by
  intro s ra rb ha hb
  have hshr := aluBinary_of_lt (m := .shr) narrow_aluShr ha hb s
  exact ⟨hshr, fun hcount => hshr.trans (by rw [BitVec.ushiftRight_eq_zero hcount])⟩

/-! ### MOD, NOT and CMP, each of its own shape -/

/-- Settles O24: past the field check, the divisor alone decides between the fault and the remainder. -/
theorem modWritesRemainderOrFaults : Obligations.ModWritesRemainderOrFaults := by
  intro s ra rb ha hb
  refine ⟨fun hdiv => ?_, fun hdiv => (withRegs_of_lt ha hb).trans (if_pos hdiv)⟩
  refine (withRegs_of_lt ha hb).trans ((if_neg hdiv).trans ?_)
  rw [setReg_advance_eq, aluMod, narrow_natCast]
  rfl

/-- Settles O26: `0xFF - x[ra]`, narrowed, is the complement. -/
theorem notWritesComplement : Obligations.NotWritesComplement := by
  intro s ra ha
  refine (withReg_of_lt ha).trans ?_
  rw [setReg_advance_eq, narrow_aluNot]
  rfl

theorem exec_cmp_of_lt {ra rb : Byte} (ha : ra.toNat < 8) (hb : rb.toNat < 8) (s : State) :
    exec (.cmp ra rb) s =
      .next { s with fl := compareFlags s.regs[ra.toNat] s.regs[rb.toNat], pc := s.pc + 3#8 } :=
  (withRegs_of_lt ha hb).trans (congrArg _ (advance_eq _ 3))

/-- CMP's value, with its first test on the bytes themselves. -/
theorem compareFlags_eq (a b : Byte) :
    compareFlags a b = if a = b then 0x01#8 else if b.toNat < a.toNat then 0x02#8 else 0x04#8 := by
  simp only [compareFlags, BitVec.toNat_inj, gt_iff_lt]

/-- Settles O29: CMP writes FL alone, and bytes are equal when their numbers are. -/
theorem cmpSetsOneFlag : Obligations.CmpSetsOneFlag := by
  intro s ra rb ha hb
  rw [exec_cmp_of_lt ha hb, compareFlags_eq]

/-! ### A branch after a compare (S5 of 95_test_vectors.md) -/

/-- JEQ past its field check (43_control.md R153). -/
theorem exec_jeq_of_lt {r : Byte} (hr : r.toNat < 8) (s : State) :
    exec (.jeq r) s = .next { s with pc := if s.fl.getLsbD 0 then s.regs[r.toNat] else s.pc + 2#8 } := by
  refine (withReg_of_lt hr).trans ?_
  rw [jumpTo_eq, advance_eq, flagE]
  split <;> rfl

/-- JNE past its field check (43_control.md R154). -/
theorem exec_jne_of_lt {r : Byte} (hr : r.toNat < 8) (s : State) :
    exec (.jne r) s = .next { s with pc := if s.fl.getLsbD 0 then s.pc + 2#8 else s.regs[r.toNat] } := by
  refine (withReg_of_lt hr).trans ?_
  rw [jumpTo_eq, advance_eq, flagE]
  split <;> rfl

/-- Settles O46: CMP leaves in bit 0 of FL whether its operands are equal, and the branch looks at that bit; an untaken
branch adds 2 to CMP's 3. -/
theorem branchFollowsCompare : Obligations.BranchFollowsCompare := by
  intro s ra rb r ha hb hr
  refine ⟨_, _, _, exec_cmp_of_lt ha hb s, exec_jeq_of_lt hr _, exec_jne_of_lt hr _, ?_⟩
  have hbit := (compareFlags_bits s.regs[ra.toNat] s.regs[rb.toNat]).1
  have hpc : s.pc + 3#8 + 2#8 = s.pc + 5#8 := BitVec.add_assoc ..
  simp only [hbit, hpc, decide_eq_true_eq, and_self]

end Sys2Proof.Machine

/-! # Data movement and the stack (42_data_stack.md) -/

namespace Sys2Proof.Machine

/-! ### Data movement -/

/-- Settles O30: the register write keeps an immediate as it stands. -/
theorem ldiWritesImmediate : Obligations.LdiWritesImmediate := by
  intro s r imm hr
  refine (withReg_of_lt hr).trans ?_
  rw [setReg_advance_eq, immediate, narrow_toNat]

/-- Settles O31: PRN emits the register its field selects and advances. -/
theorem prnEmitsRegister : Obligations.PrnEmitsRegister :=
  fun _ _ hr => (withReg_of_lt hr).trans (congrArg _ (advance_eq _ 2))

/-! ### The stack (R134; log 14) -/

/-- The register file after SP is incremented. -/
theorem incSp_regs (s : State) : s.incSp.regs = s.regs.set 7 (s.regs[7] + 1#8) :=
  congrArg (s.regs.set 7 ·) (narrow_add s.regs[7] 1)

/-- The register file after a byte is popped: the byte is written first, and SP as it is then is incremented. -/
theorem setReg_incSp_regs (s : State) (i : RegIdx) (b : Byte) :
    (s.setReg i b.toNat).incSp.regs = (s.regs.set i b).set 7 ((s.regs.set i b)[7] + 1#8) := by
  simp only [incSp_regs, setReg_regs, narrow_toNat]

/-- Settles O32: the pushed byte is read off the register file that holds the new SP. -/
theorem pushStoresBelowStack : Obligations.PushStoresBelowStack := by
  intro s r hr newRegs
  have hregs : s.decSp.regs = newRegs := decSp_regs s
  refine ⟨_, exec_push_of_lt hr s, state_ext hregs (narrow_add s.pc 2) rfl rfl rfl rfl, fun a => ?_⟩
  rw [advance_load, pushWith_load, narrow_toNat]
  simp only [reg_eq_getElem, hregs]
  rfl

/-- Settles O33: the loaded byte is written, then SP is incremented, and the rest of the state is kept. -/
theorem popLoadsThenIncrements : Obligations.PopLoadsThenIncrements := fun s r hr =>
  (withReg_of_lt hr).trans <| congrArg _ <|
    state_ext (setReg_incSp_regs s ⟨r.toNat, hr⟩ _) (narrow_add s.pc 2) rfl rfl rfl rfl

/-- Settles O44: POP reloads the byte PUSH stored, which is the register's own, and its increment undoes the decrement;
for R7 that byte is the decremented SP. -/
theorem pushThenPopRestoresRegisters : Obligations.PushThenPopRestoresRegisters := by
  intro s r hr
  obtain ⟨t, hpush, ht, hload⟩ := pushStoresBelowStack s r hr
  have hregs : t.regs = s.regs.set 7 (s.regs[7] - 1#8) := congrArg State.regs ht
  have hsp : t.regs[7] = s.regs[7] - 1#8 := by simp [hregs]
  have hpopped : t.load t.regs[7] = t.regs[r.toNat] := by simp [hload, hregs]
  have hkept : t.regs.set r.toNat (t.load t.regs[7]) = t.regs := by rw [hpopped, Vector.set_getElem_self]
  refine ⟨t, _, hpush, popLoadsThenIncrements t r hr, ?_⟩
  calc _ = t.regs.set 7 (t.regs[7] + 1#8) := by simp only [hkept]
    _ = s.regs.set 7 s.regs[7] := by rw [hsp, BitVec.sub_add_cancel, hregs, Vector.set_set]
    _ = s.regs := Vector.set_getElem_self _

end Sys2Proof.Machine

/-! # Control transfer (43_control.md) -/

namespace Sys2Proof.Machine

/-! ### The call stack (R150, R151; log 14) -/

/-- Settles O34: the return address is pushed below SP, and the target is read off the register file that holds the
new SP. -/
theorem callPushesReturnAddress : Obligations.CallPushesReturnAddress := by
  intro s r hr newRegs
  have hregs : s.decSp.regs = newRegs := decSp_regs s
  have htarget : narrow (s.decSp.regs[r.toNat]).toNat = newRegs[r.toNat] := by simp only [hregs, narrow_toNat]
  refine ⟨_, exec_call_of_lt hr s, state_ext hregs htarget rfl rfl rfl rfl, fun a => ?_⟩
  rw [jumpTo_load, pushWith_load, narrow_toNat]
  exact congrArg (if a = s.sp - 1#8 then · else s.load a) (narrow_add s.pc 2)

/-- Settles O35: the byte at SP becomes PC as it stands, and SP is incremented. -/
theorem retPopsProgramCounter : Obligations.RetPopsProgramCounter := fun s =>
  congrArg Host.Outcome.next <| state_ext (incSp_regs s) (narrow_toNat (s.load s.sp)) rfl rfl rfl rfl

/-- Settles O45: CALL leaves pc + 2 at its decremented SP, which is the byte RET takes, and RET's increment undoes the
decrement. -/
theorem callThenRetReturnsPastTheCall : Obligations.CallThenRetReturnsPastTheCall := by
  intro s r hr
  obtain ⟨t, hcall, ht, hload⟩ := callPushesReturnAddress s r hr
  have htsp : t.sp = s.sp - 1#8 := by rw [ht]; exact Vector.getElem_set_self _
  refine ⟨t, hcall, fun u husp hucell => ⟨_, retPopsProgramCounter u, ?_, ?_⟩⟩
  · calc u.load u.sp = t.load t.sp := hucell
      _ = s.pc + 2#8 := (hload t.sp).trans (if_pos htsp)
  · calc (u.regs.set 7 (u.sp + 1#8))[7] = u.sp + 1#8 := Vector.getElem_set_self _
      _ = s.sp := by rw [husp, htsp, BitVec.sub_add_cancel]

/-! ### Jumps (R152-R154) -/

/-- Settles O36: the jump changes PC alone. -/
theorem jmpSetsProgramCounter : Obligations.JmpSetsProgramCounter := fun s _ hr =>
  (exec_jmp_of_lt hr s).trans (congrArg _ (jumpTo_eq s _))

/-- Settles O37: the branch rule of JEQ, which looks at bit 0 of FL alone. -/
theorem jeqJumpsWhenEqual : Obligations.JeqJumpsWhenEqual := fun s _ hr => exec_jeq_of_lt hr s

/-- Settles O38: the branch rule of JNE, which looks at bit 0 of FL alone. -/
theorem jneJumpsWhenNotEqual : Obligations.JneJumpsWhenNotEqual := fun s _ hr => exec_jne_of_lt hr s

/-! ### HLT (R155) -/

/-- Settles O39: HLT's arm is the status write. -/
theorem hltHaltsAndChangesNothingElse : Obligations.HltHaltsAndChangesNothingElse := fun _ => rfl

end Sys2Proof.Machine

/-! # The exceptions (60_exceptions.md) -/

namespace Sys2Proof.Machine

/-! ### What an instruction of a running core ends in (R176; log 6) -/

/-- MOD with valid fields and divisor register 0, through the register file. -/
theorem wf_and_divisorIsZero_iff {i : Instr} {s : State} : i.wf = true ∧ divisorIsZero i s ↔
    ∃ (ra rb : Byte) (_ : ra.toNat < 8) (hb : rb.toNat < 8), i = .mod ra rb ∧ s.regs[rb.toNat] = 0#8 := by
  constructor
  · rintro ⟨hw, hd⟩
    obtain ⟨ra, rb, rfl, hz⟩ := divisorIsZero_iff.1 hd
    obtain ⟨ha, hb⟩ := (wf_two_fields rfl).1 hw
    rw [fieldReg_of_lt hb] at hz
    exact ⟨ra, rb, ha, hb, rfl, hz⟩
  · rintro ⟨ra, rb, ha, hb, rfl, hz⟩
    refine ⟨(wf_two_fields rfl).2 ⟨ha, hb⟩, ?_⟩
    rw [divisorIsZero, fieldReg_of_lt hb]
    exact hz

/-- Every status an instruction of a running core can end in. -/
theorem exec_status_cases {i : Instr} {s t : State} (hs : s.status = .running) (h : exec i s = .next t) :
    (i.wf = false ∧ t.status = .faulted .invalidRegister ⟨s.pc, opcodeByte i.mnemonic⟩) ∨
      (i.wf = true ∧ divisorIsZero i s ∧ t.status = .faulted .divideByZero ⟨s.pc, opcodeByte i.mnemonic⟩) ∨
      (i = .hlt ∧ t.status = .halted) ∨
      (i.wf = true ∧ ¬ divisorIsZero i s ∧ i ≠ .hlt ∧ t.status = .running) := by
  rcases exec_next_cases h with ⟨hw, rfl⟩ | ⟨hw, hd, rfl⟩ | ⟨hw, hd, rfl⟩
  · exact .inl ⟨hw, rfl⟩
  · exact .inr (.inl ⟨hw, hd, rfl⟩)
  · by_cases hi : i = .hlt
    · subst hi; exact .inr (.inr (.inl ⟨rfl, rfl⟩))
    · exact .inr (.inr (.inr ⟨hw, hd, hi, (effect_status s hi).trans hs⟩))

section
variable {i : Instr} {s t : State} (hs : s.status = .running) (h : exec i s = .next t)
include hs h

theorem exec_halted_iff : t.status = .halted ↔ i = .hlt := by
  rcases exec_status_cases hs h with ⟨hw, e⟩ | ⟨-, hd, e⟩ | ⟨hi, e⟩ | ⟨-, -, hi, e⟩ <;> rw [e]
  · exact ⟨nofun, by rintro rfl; cases hw⟩
  · exact ⟨nofun, by rintro rfl; cases hd⟩
  · exact ⟨fun _ => hi, fun _ => rfl⟩
  · exact ⟨nofun, fun hhlt => absurd hhlt hi⟩

theorem exec_invalidRegister_iff : (∃ d, t.status = .faulted .invalidRegister d) ↔ i.wf = false := by
  rcases exec_status_cases hs h with ⟨hw, e⟩ | ⟨hw, -, e⟩ | ⟨rfl, e⟩ | ⟨hw, -, -, e⟩ <;> rw [e]
  · exact ⟨fun _ => hw, fun _ => ⟨_, rfl⟩⟩
  · simp [hw]
  · exact ⟨nofun, nofun⟩
  · simp [hw]

theorem exec_divideByZero_iff :
    (∃ d, t.status = .faulted .divideByZero d) ↔ i.wf = true ∧ divisorIsZero i s := by
  rcases exec_status_cases hs h with ⟨hw, e⟩ | ⟨hw, hd, e⟩ | ⟨rfl, e⟩ | ⟨-, hd, -, e⟩ <;> rw [e]
  · simp [hw]
  · exact ⟨fun _ => ⟨hw, hd⟩, fun _ => ⟨_, rfl⟩⟩
  · exact ⟨nofun, fun hz => hz.2.elim⟩
  · simp [hd]

/-- An instruction records PC and its own opcode byte (R177), and of the four kinds it raises two. -/
theorem exec_fault_cases {f : Fault} {d : Diagnostic} (ht : t.status = .faulted f d) :
    (f = .invalidRegister ∨ f = .divideByZero) ∧ d = ⟨s.pc, opcodeByte i.mnemonic⟩ := by
  rcases exec_status_cases hs h with ⟨-, e⟩ | ⟨-, -, e⟩ | ⟨-, e⟩ | ⟨-, -, -, e⟩ <;> cases ht.symm.trans e
  · exact ⟨.inl rfl, rfl⟩
  · exact ⟨.inr rfl, rfl⟩

end

/-- Settles O10: MOD's fault is O24's second clause, and a DivideByZero of an instruction is a divisor of 0. -/
theorem divideByZeroRaisedByModAlone : Obligations.DivideByZeroRaisedByModAlone :=
  ⟨fun s ra rb ha hb hz => ⟨_, (modWritesRemainderOrFaults s ra rb ha hb).2 hz⟩,
    fun _ _ _ d hs h ht => wf_and_divisorIsZero_iff.1 ((exec_divideByZero_iff hs h).1 ⟨d, ht⟩)⟩

/-! ### What a step of a running core ends in -/

/-- A step of a running core runs the instruction its bytes decode to, or they decode to none and it records that. -/
theorem running_step_cases {s t : State} (hs : s.status = .running) (h : step s = .next t) :
    (∃ i, decode (s.load s.pc) (s.load (s.pc + 1#8)) (s.load (s.pc + 2#8)) = .ok i ∧ exec i s = .next t) ∨
      ((∃ e, decode (s.load s.pc) (s.load (s.pc + 1#8)) (s.load (s.pc + 2#8)) = .error e) ∧
        t = { s with status := .faulted .unknownOpcode ⟨s.pc, s.load s.pc⟩ }) := by
  rcases step_next_cases h with ⟨m, -, hm, he⟩ | ⟨-, hm, ht⟩ | ⟨hn, -⟩
  · exact .inl ⟨_, decode_of_mnemonicOf hm, he⟩
  · exact .inr ⟨⟨_, decode_of_ne_opcodeByte (mnemonicOf_eq_none.1 hm) _ _⟩, ht⟩
  · exact absurd hs hn

/-- Settles O8: an unknown opcode is found before anything is executed; past it, the instruction's own end conditions
decide. -/
theorem stepFaultsInPriorityOrder : Obligations.StepFaultsInPriorityOrder := by
  intro s t hs h got
  rcases running_step_cases hs h with ⟨i, hgot, he⟩ | ⟨⟨e, hgot⟩, rfl⟩
  · have hok {j : Instr} : got = .ok j ↔ i = j := by rw [show got = .ok i from hgot, Except.ok.injEq]
    simp only [hok, exec_halted_iff hs he, exec_invalidRegister_iff hs he, exec_divideByZero_iff hs he,
      exists_eq_left', ← wf_and_divisorIsZero_iff, true_and, and_true]
    refine ⟨fun ⟨d, ht⟩ => ?_, fun hne => absurd hgot (hne i)⟩
    rcases (exec_fault_cases hs he ht).1 with hf | hf <;> cases hf
  · have hok (j : Instr) : got ≠ .ok j := by rw [show got = .error e from hgot]; nofun
    simp [hok]

/-- Settles O6: the fault of a step leaves PC alone, and the recorded opcode byte is the one at PC, which is that of
the decoded instruction when there is one. -/
theorem faultRecordsPcAndOpcode : Obligations.FaultRecordsPcAndOpcode := by
  intro s t f d hs h ht
  rcases running_step_cases hs h with ⟨i, hi, he⟩ | ⟨-, rfl⟩
  · obtain ⟨-, hd⟩ := exec_fault_cases hs he ht
    obtain ⟨hop, -⟩ := decodeWith_eq_ok hi
    exact ⟨by rw [exec_faulted hs he ht], by rw [hd, hop]⟩
  · cases ht; exact ⟨rfl, rfl⟩

/-- Settles O9: an instruction raises two other kinds and the decoder a third, so the core was stopped. -/
theorem unsupportedAluOperationNeverRaised : Obligations.UnsupportedAluOperationNeverRaised := by
  refine ⟨fun s t d h ht => ?_, rfl⟩
  rcases step_next_cases h with ⟨m, hs, -, he⟩ | ⟨-, -, rfl⟩ | ⟨-, e⟩
  · rcases (exec_fault_cases hs he ht).1 with hf | hf <;> cases hf
  · cases ht
  · exact e

/-! ### After a fault (R178) -/

/-- The reset port accepts an image that fits into memory (70_reset_and_hazards.md R190). -/
theorem resetWith_of_le {image : List Byte} (h : image.length ≤ 256) :
    resetWith image = .next { State.reset with mem := loadFrom 0 image State.reset.mem } :=
  if_pos h

/-- Settles O4: a faulted core answers a step with its own state, so a request that changes the status is a reset; the
state a reset answers has the status of `State.reset`. -/
theorem onlyResetLeavesFaulted : Obligations.OnlyResetLeavesFaulted := by
  intro s f d hf
  have hstep : step s = .next s := step_of_not_running (by rw [hf]; nofun)
  refine ⟨hstep, fun q t h hne => ?_, fun image himage => ⟨_, resetWith_of_le himage, rfl⟩⟩
  cases q with
  | reset image => exact ⟨image, rfl⟩
  | step =>
    obtain rfl : s = t := Host.Outcome.next.inj (hstep.symm.trans h)
    exact absurd rfl hne

/-! ### Fault codes and exit codes (R170, 40_dispatcher.md R91; log 7, log 15) -/

theorem exitCode_of_running {s : State} (h : s.status = .running) : exitCode s = none := by
  rw [exitCode, h]

theorem exitCode_of_halted {s : State} (h : s.status = .halted) : exitCode s = some 0 := by
  rw [exitCode, h]

/-- UnknownOpcode's exit code is 1; that of another fault is one more than a free value. -/
theorem exitCode_of_faulted {s : State} {f : Fault} {d : Diagnostic} (h : s.status = .faulted f d) :
    exitCode s = some (if f = .unknownOpcode then 1 else Config.faultExitCodeLessOne f.code + 1) := by
  rw [exitCode, h]
  cases f <;> rfl

/-- Settles O51: the exit code by status; a fault's is a successor, so it is never 0. -/
theorem faultCodesAndExitCodes : Obligations.FaultCodesAndExitCodes := by
  refine ⟨rfl, rfl, rfl, fun s => ?_⟩
  cases hs : s.status with
  | running => simp [exitCode_of_running hs]
  | halted => simp [exitCode_of_halted hs]
  | faulted f d =>
    rw [exitCode_of_faulted hs]
    refine ⟨⟨nofun, nofun⟩, ⟨nofun, fun h => ?_⟩, fun _ h => ?_⟩
    · split at h <;> cases h
    · cases h; rfl

end Sys2Proof.Machine

/-! # Reset (70_reset_and_hazards.md) -/

namespace Sys2Proof.Machine

/-! ### The image load (R190; log 12) -/

/-- A number below 256 is the address of one cell only: the load's address does not wrap. -/
theorem eq_narrow_natCast_iff {a : Byte} {n : Nat} (hn : n < 256) : a = narrow (n : Int) ↔ a.toNat = n := by
  rw [narrow_natCast, BitVec.toNat_eq, BitVec.toNat_ofNat, Nat.mod_eq_of_lt hn]

/-- Every cell after a load that ends inside the memory: a byte of the list, or what the cell held before. -/
theorem memRead_loadFrom {start : Nat} {bytes : List Byte} (hfit : start + bytes.length ≤ 256) (m : Memory) (a : Byte) :
    memRead (loadFrom start bytes m) a =
      if a.toNat < start then memRead m a else bytes.getD (a.toNat - start) (memRead m a) := by
  induction bytes generalizing start m with
  | nil => simp [loadFrom]
  | cons b bs ih =>
    rw [List.length_cons] at hfit
    have hwrite : memRead (memWrite m (narrow start) b.toNat) a = if a.toNat = start then b else memRead m a := by
      simp only [memRead_write, narrow_toNat, eq_narrow_natCast_iff (show start < 256 by omega)]
    rw [loadFrom, ih (by omega), hwrite]
    rcases Nat.lt_trichotomy a.toNat start with hlt | heq | hgt
    · rw [if_pos (by omega), if_neg (by omega), if_pos hlt]
    · simp [heq]
    · rw [if_neg (by omega), if_neg (by omega), if_neg (by omega),
        show a.toNat - start = a.toNat - (start + 1) + 1 by omega, List.getD_cons_succ]

/-- A cell after a reset: the image's byte, or 0x00 past its end (10_state.md R34). -/
theorem memRead_loadFrom_zero {image : List Byte} (h : image.length ≤ 256) (a : Byte) :
    memRead (loadFrom 0 image []) a = if ha : a.toNat < image.length then image[a.toNat] else 0x00#8 := by
  rw [memRead_loadFrom (by omega), if_neg (Nat.not_lt_zero _), Nat.sub_zero]
  split
  · next ha => exact List.getD_eq_getElem _ _ ha
  · next ha => exact List.getD_eq_default _ _ (Nat.le_of_not_lt ha)

/-- Settles O14: the load starts from empty memory, where every cell holds 0x00, and touches nothing but memory. -/
theorem resetLoadsImage : Obligations.ResetLoadsImage := fun _ image h =>
  ⟨_, resetWith_of_le h, memRead_loadFrom_zero h, loadFrom_wf 0 image [] memWf_nil, rfl, rfl, rfl, rfl, rfl⟩

/-! ### The entry point (R192) -/

theorem reset_reg_of_lt {r : RegIdx} (h : r.val < 7) : State.reset.reg r = 0x00#8 := by
  revert r; decide

/-- Settles O12: the load leaves the registers of `State.reset` alone, and the first fetch is at PC. -/
theorem runStartsAtAddressZero : Obligations.RunStartsAtAddressZero := fun _ h =>
  ⟨_, resetWith_of_le h, rfl, rfl, rfl, rfl, fun _ hr => reset_reg_of_lt hr, congrArg Latch.opcode (fetch_eq _)⟩

/-! ### Refused and empty images (R191; log 11) -/

theorem resetWith_of_gt {image : List Byte} (h : 256 < image.length) :
    resetWith image = .refused (.imageTooLong image.length) :=
  if_neg (Nat.not_le_of_lt h)

theorem opcodeByte_ne_zero (m : Mnemonic) : opcodeByte m ≠ 0x00#8 := by
  cases m <;> decide

/-- Settles O15: the empty image loads no byte, so the first fetch reads 0x00, which is no opcode. -/
theorem oversizeImageRefusedEmptyImageFaults : Obligations.OversizeImageRefusedEmptyImageFaults :=
  ⟨fun _ => resetWith_of_gt, resetWith_of_le (Nat.zero_le _), step_of_unknownOpcode rfl opcodeByte_ne_zero⟩

/-! ### The invariant after a reset (log 23) -/

/-- The only state the reset port answers: of an image that does not fit there is none. -/
theorem eq_of_resetWith_eq_next {image : List Byte} {t : State} (h : resetWith image = .next t) :
    t = { State.reset with mem := loadFrom 0 image State.reset.mem } := by
  by_cases hlen : image.length ≤ 256
  · rw [resetWith_of_le hlen] at h
    exact (Host.Outcome.next.inj h).symm
  · rw [resetWith_of_gt (Nat.lt_of_not_le hlen)] at h
    cases h

/-- The other fields of the reset state meet the invariant, whatever canonical memory stands beside them. -/
theorem reset_with_mem_inv {m : Memory} (h : m.wf) : State.Inv { State.reset with mem := m } :=
  ⟨h, .inl rfl, trivial⟩

/-- Settles O59: both memories are in canonical form, the empty one and the loaded one. -/
theorem resetEstablishesInvariant : Obligations.ResetEstablishesInvariant := by
  refine ⟨reset_with_mem_inv memWf_nil, fun image t h => ?_⟩
  rw [eq_of_resetWith_eq_next h]
  exact reset_with_mem_inv (loadFrom_wf 0 image [] memWf_nil)

end Sys2Proof.Machine
